-- ==== Sys2Proof/Word.lean ====
section
/-!
DEFINITION. The word types of the block (spec/00_scope.md R7, R9).
Bit vectors hold what the spec numbers bit by bit; register numbers and logical keys are bounded
indexes; host key codes and instants are numbers.
-/
namespace Sys2Proof

/-- An 8-bit value: a general register, a timer, a byte of memory (R7, R20, R26, R32). -/
abbrev Byte := BitVec 8

/-- A 16-bit value: an instruction word, the program counter, the index register, a stack entry
(R7, R23, R24, R25, R70). -/
abbrev Word := BitVec 16

/-- The 12-bit address field `NNN` of an instruction (R72). -/
abbrev Addr12 := BitVec 12

/-- The 4-bit immediate `N` of an instruction (R72). -/
abbrev Nibble := BitVec 4

/-- The number of a general register, `0x0` to `0xF` (R20). -/
abbrev Reg := Fin 16

/-- A logical key, `0x0` to `0xF` (R30). -/
abbrev Key := Fin 16

/-- A host key code `h` of a key-down event (R240). The spec gives it no width. -/
abbrev HostKey := Nat

/-- A real-time instant: a rational number of seconds (R29, R31, R241). -/
abbrev Time := Rat

end Sys2Proof
end

