-- ==== Sys2Proof/Machine/OpcodeMap.lean ====
section
/-!
DEFINITION. The opcode map of spec/30_encoding.md R81, as a table of masks and matches. The decoder does
not read it: it is the spec's second description of the encoding, and the laws hold the decoder and the
encoder against it.
-/
namespace Sys2Proof

/-- One row of the opcode map (R81). -/
structure OpcodeRow where
  mnemonic : String
  mask : Word
  pattern : Word
  deriving DecidableEq, Repr

/-- Rows 1 to 34 of the opcode map (R81). Row 35, UNKNOWN, is every word none of these covers. -/
def opcodeMap : List OpcodeRow :=
  [⟨"CLEAR", 0xF0FF, 0x00E0⟩, ⟨"RETURN", 0xF0FF, 0x00EE⟩,
   ⟨"JUMP", 0xF000, 0x1000⟩, ⟨"CALL", 0xF000, 0x2000⟩,
   ⟨"SKIP_EQ_IMM", 0xF000, 0x3000⟩, ⟨"SKIP_NE_IMM", 0xF000, 0x4000⟩,
   ⟨"SKIP_EQ_REG", 0xF000, 0x5000⟩, ⟨"SET_IMM", 0xF000, 0x6000⟩,
   ⟨"ADD_IMM", 0xF000, 0x7000⟩] ++
  [⟨"SET_REG", 0xF00F, 0x8000⟩, ⟨"OR", 0xF00F, 0x8001⟩, ⟨"AND", 0xF00F, 0x8002⟩,
   ⟨"XOR", 0xF00F, 0x8003⟩, ⟨"ADD", 0xF00F, 0x8004⟩, ⟨"SUBTRACT", 0xF00F, 0x8005⟩,
   ⟨"RSHIFT", 0xF00F, 0x8006⟩, ⟨"ISUBTRACT", 0xF00F, 0x8007⟩, ⟨"LSHIFT", 0xF00F, 0x800E⟩] ++
  [⟨"SKIP_NE_REG", 0xF000, 0x9000⟩, ⟨"SET_INDEX", 0xF000, 0xA000⟩,
   ⟨"JUMP_OFFSET", 0xF000, 0xB000⟩, ⟨"RANDOM", 0xF000, 0xC000⟩,
   ⟨"DISPLAY", 0xF000, 0xD000⟩,
   ⟨"SKIP_IF_KEY", 0xF0FF, 0xE09E⟩, ⟨"SKIP_IF_NOT_KEY", 0xF0FF, 0xE0A1⟩] ++
  [⟨"READ_DELAY_TIMER", 0xF0FF, 0xF007⟩, ⟨"GET_KEY", 0xF0FF, 0xF00A⟩,
   ⟨"SET_DELAY_TIMER", 0xF0FF, 0xF015⟩, ⟨"SET_BEAP_TIMER", 0xF0FF, 0xF018⟩,
   ⟨"ADD_INDEX", 0xF0FF, 0xF01E⟩, ⟨"FONT", 0xF0FF, 0xF029⟩,
   ⟨"BINARY_CODED_DECIMAL", 0xF0FF, 0xF033⟩, ⟨"STORE", 0xF0FF, 0xF055⟩,
   ⟨"LOAD", 0xF0FF, 0xF065⟩]

/-- A row covers a word whose bits under its mask are its match (R81). -/
def rowCovers (r : OpcodeRow) (w : Word) : Bool :=
  w &&& r.mask == r.pattern

/-- The UNKNOWN words: those no row 1 to 34 covers (R82). -/
def isUnknownWord (w : Word) : Bool :=
  opcodeMap.all fun r => !rowCovers r w

end Sys2Proof
end

