-- ==== Sys2Proof/Syntax.lean ====
section
/-!
DEFINITION. The instructions: one constructor for each row of spec/opcode_table.json
(spec/30_encoding.md R80, R81), in the table's order. Fields are the operands the instruction's format
uses (R73); bits the spec calls ignored (R83) are no field.
-/
namespace Sys2Proof

/-- The 34 decodable instructions and the UNKNOWN outcome of the decoder (R80). -/
inductive Instr where
  /-- `CLEAR`, `00E0` with X ignored (R172). -/
  | clear
  /-- `RETURN`, `00EE` with X ignored (R100). -/
  | ret
  /-- `JUMP nnn`, `1NNN` (R101). -/
  | jump (nnn : Addr12)
  /-- `CALL nnn`, `2NNN` (R102). -/
  | call (nnn : Addr12)
  /-- `SKIP_EQ_IMM Vx, nn`, `3XNN` (R103). -/
  | skipEqImm (x : Reg) (nn : Byte)
  /-- `SKIP_NE_IMM Vx, nn`, `4XNN` (R104). -/
  | skipNeImm (x : Reg) (nn : Byte)
  /-- `SKIP_EQ_REG Vx, Vy`, `5XYN` with N ignored (R105). -/
  | skipEqReg (x y : Reg)
  /-- `SET_IMM Vx, nn`, `6XNN` (R120). -/
  | setImm (x : Reg) (nn : Byte)
  /-- `ADD_IMM Vx, nn`, `7XNN` (R121). -/
  | addImm (x : Reg) (nn : Byte)
  /-- `SET_REG Vx, Vy`, `8XY0` (R122). -/
  | setReg (x y : Reg)
  /-- `OR Vx, Vy`, `8XY1` (R123). -/
  | or (x y : Reg)
  /-- `AND Vx, Vy`, `8XY2` (R124). -/
  | and (x y : Reg)
  /-- `XOR Vx, Vy`, `8XY3` (R125). -/
  | xor (x y : Reg)
  /-- `ADD Vx, Vy`, `8XY4` (R130). -/
  | add (x y : Reg)
  /-- `SUBTRACT Vx, Vy`, `8XY5` (R131). -/
  | subtract (x y : Reg)
  /-- `RSHIFT Vx`, `8XY6` with Y ignored (R132). -/
  | rshift (x : Reg)
  /-- `ISUBTRACT Vx, Vy`, `8XY7` (R133). -/
  | isubtract (x y : Reg)
  /-- `LSHIFT Vx`, `8XYE` with Y ignored (R134). -/
  | lshift (x : Reg)
  /-- `SKIP_NE_REG Vx, Vy`, `9XYN` with N ignored (R106). -/
  | skipNeReg (x y : Reg)
  /-- `SET_INDEX nnn`, `ANNN` (R150). -/
  | setIndex (nnn : Addr12)
  /-- `JUMP_OFFSET nnn`, `BNNN` (R107). -/
  | jumpOffset (nnn : Addr12)
  /-- `RANDOM Vx, nn`, `CXNN` (R141). -/
  | random (x : Reg) (nn : Byte)
  /-- `DISPLAY Vx, Vy, n`, `DXYN` (R173). -/
  | display (x y : Reg) (n : Nibble)
  /-- `SKIP_IF_KEY Vx`, `EX9E` (R191). -/
  | skipIfKey (x : Reg)
  /-- `SKIP_IF_NOT_KEY Vx`, `EXA1` (R192). -/
  | skipIfNotKey (x : Reg)
  /-- `READ_DELAY_TIMER Vx`, `FX07` (R194). -/
  | readDelayTimer (x : Reg)
  /-- `GET_KEY Vx`, `FX0A` (R193). -/
  | getKey (x : Reg)
  /-- `SET_DELAY_TIMER Vx`, `FX15` (R195). -/
  | setDelayTimer (x : Reg)
  /-- `SET_BEAP_TIMER Vx`, `FX18` (R196). -/
  | setBeapTimer (x : Reg)
  /-- `ADD_INDEX Vx`, `FX1E` (R151). -/
  | addIndex (x : Reg)
  /-- `FONT Vx`, `FX29` (R152). -/
  | font (x : Reg)
  /-- `BINARY_CODED_DECIMAL Vx`, `FX33` (R153). -/
  | binaryCodedDecimal (x : Reg)
  /-- `STORE Vx`, `FX55` (R154). -/
  | store (x : Reg)
  /-- `LOAD Vx`, `FX65` (R155). -/
  | load (x : Reg)
  /-- `UNKNOWN`: the raw word `w` that no other row matches (R82, R211). -/
  | unknown (w : Word)
  deriving DecidableEq, Repr

end Sys2Proof
end

