-- ==== Sys2Proof/WellFormed.lean ====
section
/-!
DEFINITION. Well-formedness of instructions. Every operand's type already has exactly the values its
field has (spec/30_encoding.md R72), so one check remains: UNKNOWN carries a word that no row of the opcode
map covers (R82).
-/
namespace Sys2Proof

/-- An instruction is well formed when some word decodes to it (R81, R82). -/
def Instr.wellFormed : Instr → Bool
  | .clear | .ret => true
  | .jump _ | .call _ | .setIndex _ | .jumpOffset _ => true
  | .skipEqImm _ _ | .skipNeImm _ _ | .setImm _ _ | .addImm _ _ | .random _ _ => true
  | .skipEqReg _ _ | .skipNeReg _ _ | .setReg _ _ => true
  | .or _ _ | .and _ _ | .xor _ _ | .add _ _ | .subtract _ _ | .isubtract _ _ => true
  | .rshift _ | .lshift _ => true
  | .display _ _ _ => true
  | .skipIfKey _ | .skipIfNotKey _ => true
  | .readDelayTimer _ | .getKey _ | .setDelayTimer _ | .setBeapTimer _ => true
  | .addIndex _ | .font _ | .binaryCodedDecimal _ | .store _ | .load _ => true
  | .unknown w => isUnknownWord w

end Sys2Proof
end

