-- ==== Sys2Proof/Decode.lean ====
section
/-!
DEFINITION. The decoder and the encoder (spec/30_encoding.md R70 to R85). The decoder follows the function
of R78, the encoder the formats of R73 with ignored bits written 0 (R84).
-/
namespace Sys2Proof

/-! The fields of a word (R72). -/

/-- `op = w[15:12]`. -/
def opField (w : Word) : Nibble := w.extractLsb' 12 4
/-- `X = w[11:8]`, the number of a register. -/
def xField (w : Word) : Reg := (w.extractLsb' 8 4).toFin
/-- `Y = w[7:4]`, the number of a register. -/
def yField (w : Word) : Reg := (w.extractLsb' 4 4).toFin
/-- `N = w[3:0]`. -/
def nField (w : Word) : Nibble := w.extractLsb' 0 4
/-- `NN = w[7:0]`. -/
def nnField (w : Word) : Byte := w.extractLsb' 0 8
/-- `NNN = w[11:0]`. -/
def nnnField (w : Word) : Addr12 := w.extractLsb' 0 12

/-- Family 0x0: the low byte is the sub-opcode, X is ignored (R78, R79). -/
def decodeFamily0 (w : Word) : Instr :=
  match (nnField w).toNat with
  | 0xE0 => .clear
  | 0xEE => .ret
  | _ => .unknown w

/-- Family 0x8: the low nibble alone is the sub-opcode (R78, R79, 90_conflicts.md C1). -/
def decodeFamily8 (w : Word) : Instr :=
  match (nField w).toNat with
  | 0x0 => .setReg (xField w) (yField w)
  | 0x1 => .or (xField w) (yField w)
  | 0x2 => .and (xField w) (yField w)
  | 0x3 => .xor (xField w) (yField w)
  | 0x4 => .add (xField w) (yField w)
  | 0x5 => .subtract (xField w) (yField w)
  | 0x6 => .rshift (xField w)
  | 0x7 => .isubtract (xField w) (yField w)
  | 0xE => .lshift (xField w)
  | _ => .unknown w

/-- Family 0xE: the low byte is the sub-opcode (R78, R79). -/
def decodeFamilyE (w : Word) : Instr :=
  match (nnField w).toNat with
  | 0x9E => .skipIfKey (xField w)
  | 0xA1 => .skipIfNotKey (xField w)
  | _ => .unknown w

/-- Family 0xF: the low byte is the sub-opcode (R78, R79). -/
def decodeFamilyF (w : Word) : Instr :=
  match (nnField w).toNat with
  | 0x07 => .readDelayTimer (xField w)
  | 0x0A => .getKey (xField w)
  | 0x15 => .setDelayTimer (xField w)
  | 0x18 => .setBeapTimer (xField w)
  | 0x1E => .addIndex (xField w)
  | 0x29 => .font (xField w)
  | 0x33 => .binaryCodedDecimal (xField w)
  | 0x55 => .store (xField w)
  | 0x65 => .load (xField w)
  | _ => .unknown w

/-- `Decode(w)`: total on every 16-bit word (R78). The last arm is the one nibble left, 0xF. -/
def decodeWord (w : Word) : Instr :=
  match (opField w).toNat with
  | 0x0 => decodeFamily0 w
  | 0x1 => .jump (nnnField w)
  | 0x2 => .call (nnnField w)
  | 0x3 => .skipEqImm (xField w) (nnField w)
  | 0x4 => .skipNeImm (xField w) (nnField w)
  | 0x5 => .skipEqReg (xField w) (yField w)
  | 0x6 => .setImm (xField w) (nnField w)
  | 0x7 => .addImm (xField w) (nnField w)
  | 0x8 => decodeFamily8 w
  | 0x9 => .skipNeReg (xField w) (yField w)
  | 0xA => .setIndex (nnnField w)
  | 0xB => .jumpOffset (nnnField w)
  | 0xC => .random (xField w) (nnField w)
  | 0xD => .display (xField w) (yField w) (nField w)
  | 0xE => decodeFamilyE w
  | _ => decodeFamilyF w

/-- The word `(b1 << 8) | b2` of two bytes, the first the high one (R55, R71). -/
def wordOfBytes (b1 b2 : Byte) : Word := BitVec.ofNat 16 (b1.toNat * 0x100 + b2.toNat)

/-- The two bytes of a word as memory holds them, the high one first (R55). -/
def bytesOfWord (w : Word) : List Byte := [w.extractLsb' 8 8, w.extractLsb' 0 8]

/-- Why a list of bytes does not decode. -/
inductive DecodeError where
  /-- Fewer than the two bytes every instruction has (R70). No word itself is refused (R82). -/
  | truncated
  deriving DecidableEq, Repr

/-- Decode the instruction at the head of a list of bytes; the rest of the list comes back (R70, R71). -/
def decodeBytes : List Byte → Except DecodeError (Instr × List Byte)
  | b1 :: b2 :: rest => .ok (decodeWord (wordOfBytes b1 b2), rest)
  | _ => .error .truncated

/-- The host's question: the instruction the decoder reads from the table's word `w` of `nbits` bits,
laid out in memory as R55 says. -/
def decodeTableWord (nbits w : Nat) : Option Instr :=
  match decodeBytes (bytesOfWord (BitVec.ofNat 16 (w % 2 ^ nbits))) with
  | .ok (i, _) => some i
  | .error _ => none

/-! The encoder: the formats of R73. -/

/-- Format `F-NNN`: `oooo aaaa aaaa aaaa`. -/
def packNNN (op : Nibble) (nnn : Addr12) : Word :=
  BitVec.ofNat 16 (op.toNat * 0x1000 + nnn.toNat)

/-- Format `F-XNN`, and `F-XS` with the sub-opcode for NN: `oooo xxxx kkkk kkkk`. -/
def packXNN (op : Nibble) (x : Reg) (nn : Byte) : Word :=
  BitVec.ofNat 16 (op.toNat * 0x1000 + x.val * 0x100 + nn.toNat)

/-- Format `F-XYN`: `oooo xxxx yyyy nnnn`. -/
def packXYN (op : Nibble) (x y : Reg) (n : Nibble) : Word :=
  BitVec.ofNat 16 (op.toNat * 0x1000 + x.val * 0x100 + y.val * 0x10 + n.toNat)

/-- The word of an instruction, ignored bits 0 (R73, R81, R84). -/
def encode : Instr → Word
  | .clear => packXNN 0x0 0 0xE0
  | .ret => packXNN 0x0 0 0xEE
  | .jump nnn => packNNN 0x1 nnn
  | .call nnn => packNNN 0x2 nnn
  | .skipEqImm x nn => packXNN 0x3 x nn
  | .skipNeImm x nn => packXNN 0x4 x nn
  | .skipEqReg x y => packXYN 0x5 x y 0x0
  | .setImm x nn => packXNN 0x6 x nn
  | .addImm x nn => packXNN 0x7 x nn
  | .setReg x y => packXYN 0x8 x y 0x0
  | .or x y => packXYN 0x8 x y 0x1
  | .and x y => packXYN 0x8 x y 0x2
  | .xor x y => packXYN 0x8 x y 0x3
  | .add x y => packXYN 0x8 x y 0x4
  | .subtract x y => packXYN 0x8 x y 0x5
  | .rshift x => packXYN 0x8 x 0 0x6
  | .isubtract x y => packXYN 0x8 x y 0x7
  | .lshift x => packXYN 0x8 x 0 0xE
  | .skipNeReg x y => packXYN 0x9 x y 0x0
  | .setIndex nnn => packNNN 0xA nnn
  | .jumpOffset nnn => packNNN 0xB nnn
  | .random x nn => packXNN 0xC x nn
  | .display x y n => packXYN 0xD x y n
  | .skipIfKey x => packXNN 0xE x 0x9E
  | .skipIfNotKey x => packXNN 0xE x 0xA1
  | .readDelayTimer x => packXNN 0xF x 0x07
  | .getKey x => packXNN 0xF x 0x0A
  | .setDelayTimer x => packXNN 0xF x 0x15
  | .setBeapTimer x => packXNN 0xF x 0x18
  | .addIndex x => packXNN 0xF x 0x1E
  | .font x => packXNN 0xF x 0x29
  | .binaryCodedDecimal x => packXNN 0xF x 0x33
  | .store x => packXNN 0xF x 0x55
  | .load x => packXNN 0xF x 0x65
  | .unknown w => w

/-- The bytes of an instruction in memory order (R55). -/
def encodeBytes (i : Instr) : List Byte := bytesOfWord (encode i)

/-- The category an instruction belongs to, in the names of R80 and of the opcode map (R81). -/
def Instr.mnemonic : Instr → String
  | .clear => "CLEAR"
  | .ret => "RETURN"
  | .jump _ => "JUMP"
  | .call _ => "CALL"
  | .skipEqImm _ _ => "SKIP_EQ_IMM"
  | .skipNeImm _ _ => "SKIP_NE_IMM"
  | .skipEqReg _ _ => "SKIP_EQ_REG"
  | .setImm _ _ => "SET_IMM"
  | .addImm _ _ => "ADD_IMM"
  | .setReg _ _ => "SET_REG"
  | .or _ _ => "OR"
  | .and _ _ => "AND"
  | .xor _ _ => "XOR"
  | .add _ _ => "ADD"
  | .subtract _ _ => "SUBTRACT"
  | .rshift _ => "RSHIFT"
  | .isubtract _ _ => "ISUBTRACT"
  | .lshift _ => "LSHIFT"
  | .skipNeReg _ _ => "SKIP_NE_REG"
  | .setIndex _ => "SET_INDEX"
  | .jumpOffset _ => "JUMP_OFFSET"
  | .random _ _ => "RANDOM"
  | .display _ _ _ => "DISPLAY"
  | .skipIfKey _ => "SKIP_IF_KEY"
  | .skipIfNotKey _ => "SKIP_IF_NOT_KEY"
  | .readDelayTimer _ => "READ_DELAY_TIMER"
  | .getKey _ => "GET_KEY"
  | .setDelayTimer _ => "SET_DELAY_TIMER"
  | .setBeapTimer _ => "SET_BEAP_TIMER"
  | .addIndex _ => "ADD_INDEX"
  | .font _ => "FONT"
  | .binaryCodedDecimal _ => "BINARY_CODED_DECIMAL"
  | .store _ => "STORE"
  | .load _ => "LOAD"
  | .unknown _ => "UNKNOWN"

end Sys2Proof
end

