-- ==== Sys2Proof/Machine/Event.lean ====
section
/-! DEFINITION. The events the host hands over (spec/60_exceptions.md R240). -/
namespace Sys2Proof.Machine

/-- A host event (R240). -/
inductive HostEvent where
  | quit
  | keyDown (h : HostKey)
  | other
  deriving DecidableEq, Repr

end Sys2Proof.Machine
end

