-- ==== Sys2Proof/Machine/Params.lean ====
section
/-!
DEFINITION. The implementation parameters of spec/00_scope.md R7, each with the value of its column
"this hardware". They stand here, and not in Config.lean, so that a value the spec marks as its own
decision (D7, D10, D11) can be mended without touching anything else.
-/
namespace Sys2Proof.Config

/-- `MEM_SIZE`: bytes of memory (R7, R32, R50). -/
abbrev memSize : Nat := 4096

/-- `LOAD_BASE`: the address of the first program byte, and the reset `pc` (R7, R251). -/
abbrev loadBase : Nat := 0x200

/-- `STACK_DEPTH`: the capacity of the call stack (R7, R25, decision D7). -/
abbrev stackDepth : Nat := 16

/-- `SCREEN_W`: columns of the framebuffer (R7, R33, decision D10). -/
abbrev screenW : Nat := 64

/-- `SCREEN_H`: rows of the framebuffer (R7, R33, decision D10). -/
abbrev screenH : Nat := 32

/-- `TICK`: the period of the timers, in seconds (R7, R233). -/
def tick : Time := 1 / 60

/-- `DEBOUNCE`: the length of the key-press window, in seconds (R7, R235). -/
def debounce : Time := 1 / 60

/-- `GLYPH_BYTES`: bytes of one glyph (R7, R41). -/
abbrev glyphBytes : Nat := 5

/-- `FONT_OFFSET`: the address of glyph 0 (R7, R41, decision D11). -/
abbrev fontOffset : Nat := 0x050

/-- `FONT_DATA`: the sixteen glyphs of five bytes, top row first (R41). -/
def fontData : List Byte :=
  [0xF0, 0x90, 0x90, 0x90, 0xF0] ++ [0x20, 0x60, 0x20, 0x20, 0x70] ++
  [0xF0, 0x10, 0xF0, 0x80, 0xF0] ++ [0xF0, 0x10, 0xF0, 0x10, 0xF0] ++
  [0x90, 0x90, 0xF0, 0x10, 0x10] ++ [0xF0, 0x80, 0xF0, 0x10, 0xF0] ++
  [0xF0, 0x80, 0xF0, 0x90, 0xF0] ++ [0xF0, 0x10, 0x20, 0x40, 0x40] ++
  [0xF0, 0x90, 0xF0, 0x90, 0xF0] ++ [0xF0, 0x90, 0xF0, 0x10, 0xF0] ++
  [0xF0, 0x90, 0xF0, 0x90, 0x90] ++ [0xE0, 0x90, 0xE0, 0x90, 0xE0] ++
  [0xF0, 0x80, 0x80, 0x80, 0xF0] ++ [0xE0, 0x90, 0x90, 0x90, 0xE0] ++
  [0xF0, 0x80, 0xF0, 0x80, 0xF0] ++ [0xF0, 0x80, 0xF0, 0x80, 0x80]

end Sys2Proof.Config
end

