-- ==== Sys2Proof/Machine/State.lean ====
section
/-!
DEFINITION. The state of the block (spec/10_state.md R20 to R39), why it stops, and its reset. The fields up to
`status` are the spec's own tuple; `clock` and `draws` hold the inputs the spec calls draws
(spec/00_scope.md R8), as plain data the step reads.
-/
namespace Sys2Proof.Machine

/-- Why the machine is in status `Faulted` (R35, spec/60_exceptions.md R213). -/
inductive FaultReason where
  /-- Code 1: the lowest out-of-range address the fetch or the instruction would touch. -/
  | addressOutOfRange (addr : Nat)
  /-- Code 2: CALL with `STACK_DEPTH` entries on the stack. -/
  | stackOverflow
  deriving DecidableEq, Repr

/-- `status` (R35). -/
inductive Status where
  | running
  | halted
  | faulted (reason : FaultReason)
  deriving DecidableEq, Repr

/-- An output event (R34, spec/60_exceptions.md R246). -/
inductive OutEvent where
  /-- The sound phase found `ST > 0` (R234). -/
  | playSound
  /-- UNKNOWN ran at address `a` with the raw word `w` (R211). -/
  | diagnostic (a w : Word)
  /-- CLEAR ran (R172). -/
  | cleared
  deriving DecidableEq, Repr

/-- Memory `M` (R32): address and byte pairs in one canonical form (`Memory.wf` in Machine/Memory.lean).
An address with no pair reads as its byte after a reset with the empty image. -/
abbrev Memory := List Host.Cell

/-- The framebuffer `fb[cx][cy]` (R33): a column of `SCREEN_H` cells for each `cx`; `true` is set. -/
abbrev Framebuffer := Vector (Vector Bool Config.screenH) Config.screenW

/-- The inputs still to come (spec/00_scope.md R8): the model's own field, no state of the spec (R40).
Log entries 1, 2 and 3. -/
structure Draws where
  /-- The event list of each coming iteration (R240). When it runs out, an iteration's list is
  `Config.hostEvents`. -/
  events : List (List HostEvent)
  /-- The coming clock readings (R241). When it runs out, readings are `Config.clockReading`. -/
  readings : List Time
  /-- The coming random bytes (R140). When it runs out, bytes are `Config.rand8`. -/
  randoms : List Byte
  /-- How many free values of Config have been drawn. -/
  drawn : Nat
  deriving DecidableEq, Repr

/-- The whole state of the block (R20 to R35), and the model's own `clock` and `draws`. -/
@[ext]
structure State where
  /-- `x[0x0]` to `x[0xF]` (R20, R21). -/
  v : Vector Byte 16
  /-- `I` (R24). -/
  index : Word
  /-- `pc` (R23). -/
  pc : Word
  /-- The call stack, newest entry last (R25). -/
  stack : List Word
  /-- `DT` (R26). -/
  dt : Byte
  /-- `ST` (R26). -/
  st : Byte
  /-- `t_ref` (R29). -/
  tRef : Time
  /-- The key latch's `key` (R30). -/
  key : Option Key
  /-- The key latch's `pressed` (R30). -/
  pressed : Bool
  /-- `key_ref` (R31). -/
  keyRef : Time
  /-- `M` (R32). -/
  mem : Memory
  /-- `fb` (R33). -/
  fb : Framebuffer
  /-- The output trace `out` (R34), oldest event first. -/
  out : List OutEvent
  /-- `status` (R35). -/
  status : Status
  /-- The last clock reading (spec/60_exceptions.md R241): the model's own field, log entry 3. -/
  clock : Time
  /-- The inputs still to come: the model's own field, log entries 1, 2 and 3. -/
  draws : Draws
  deriving DecidableEq, Repr

/-- Why a step gives no next state. No instruction raises one: an instruction's fault is a next state with
status `Faulted` (spec/60_exceptions.md R213, log entry 6). -/
inductive Fault where
  /-- Raised by `step` in status `Halted`: no further iteration runs (R35, spec/60_exceptions.md R248).
  Safe. -/
  | halted
  /-- Raised by `step` in status `Faulted(reason)`: no further iteration runs (R35, R213). Safe. -/
  | faulted (reason : FaultReason)
  deriving DecidableEq, Repr

/-- Why a step has no meaning. -/
inductive Refusal where
  /-- Raised by an arm of `exec` whose instruction has no meaning yet; no arm does. Safe. -/
  | notModelled (mnemonic : String)
  deriving DecidableEq, Repr

/-- A step's answer (host interface). -/
abbrev Outcome := Host.Outcome State Fault Refusal

/-- The machine right after reset (R39, spec/70_reset_and_hazards.md R250) with the empty program image
(R255) and `T0 = 0` (log entry 4). Memory lists nothing: font and zeros are what unlisted
addresses read as. -/
def State.reset : State where
  v := Vector.replicate 16 0
  index := 0
  pc := BitVec.ofNat 16 Config.loadBase
  stack := []
  dt := 0
  st := 0
  tRef := 0
  key := none
  pressed := false
  keyRef := 0
  mem := []
  fb := Vector.replicate Config.screenW (Vector.replicate Config.screenH false)
  out := []
  status := .running
  clock := 0
  draws := { events := [], readings := [], randoms := [], drawn := 0 }

end Sys2Proof.Machine
end

