-- ==== Sys2Proof/Machine/Operands.lean ====
section
/-!
DEFINITION. How operands are assembled (spec/30_encoding.md R74) and the values the instructions compute
from them. Nothing is sign-extended, scaled or shifted.
-/
namespace Sys2Proof.Machine

/-- `zext_16(NNN)` (R74). -/
def zextAddr (nnn : Addr12) : Word := nnn.setWidth 16

/-- `zext_16` of a register's value (R74, spec/40_control_flow.md R107). -/
def zextByte (b : Byte) : Word := b.setWidth 16

/-- A logical key zero-extended to 8 bits (spec/44_keypad_timers.md R191, R193). -/
def keyByte (k : Key) : Byte := BitVec.ofNat 8 k.val

/-- The effective address of the first byte an instruction touches; the k-th is `I + k`, unmasked
(spec/42_index_memory.md R156). -/
def baseAddress (index : Word) : Nat := index.toNat

/-- The target of JUMP_OFFSET: `NNN + V0`, unmasked (spec/40_control_flow.md R107). -/
def offsetTarget (nnn : Addr12) (v0 : Byte) : Word := zextAddr nnn + zextByte v0

/-- `(I + Rx) & 0x0FFF` (spec/42_index_memory.md R151). -/
def addIndexResult (index : Word) (b : Byte) : Word := (index + zextByte b) &&& 0x0FFF

/-- `(Rx & 0x0F) * 5 + FONT_OFFSET` (spec/42_index_memory.md R152). -/
def fontAddress (b : Byte) : Word :=
  BitVec.ofNat 16 ((b &&& 0x0F).toNat * Config.glyphBytes + Config.fontOffset)

/-- The hundreds, tens and units digits of a byte, in the order they are stored
(spec/42_index_memory.md R153). -/
def bcdDigits (b : Byte) : List Byte :=
  [BitVec.ofNat 8 (b.toNat / 100), BitVec.ofNat 8 (b.toNat / 10 % 10), BitVec.ofNat 8 (b.toNat % 10)]

end Sys2Proof.Machine
end

