-- ==== Sys2Proof/Config.lean ====
section
/-!
DEFINITION. What the spec leaves open: the OPEN parameter `KEYMAP` and the free values of the draws
(spec/00_scope.md R7, R8). None has a body, so nothing can be proved about a value of one.
The fixed parameters of R7 stand in Machine/Params.lean.
-/
namespace Sys2Proof.Config

/-- `KEYMAP`: which logical key a host key code maps to, if any. OPEN by spec/60_exceptions.md R247
(decision D35): a statement about `step` holds for every map. -/
opaque keymap : HostKey → Option Key

/-- The n-th free list of host events, of any length and contents, once `State.draws` lists no more
lists (spec/60_exceptions.md R240). Log entry 1. -/
opaque hostEvents : Nat → List Machine.HostEvent

/-- The n-th free draw of `rand8()` once `State.draws` lists no more random bytes
(spec/41_register_alu.md R140). Log entry 2. -/
opaque rand8 : Nat → Byte

/-- The n-th free reading of the host's clock once `State.draws` lists no more readings
(spec/60_exceptions.md R241). `State.readClock` never lets the clock run backwards.
Log entry 3. -/
opaque clockReading : Nat → Time

end Sys2Proof.Config
end

