-- ==== Sys2Proof/Machine/Flags.lean ====
section
/-!
DEFINITION. The flag computations: every value an instruction writes to VF as a flag
(spec/10_state.md R37). DISPLAY's collision flag is what drawing answers (Machine/Framebuffer.lean).
-/
namespace Sys2Proof.Machine

/-- A flag as VF holds it: 1 or 0 (R37). -/
def flagByte (f : Bool) : Byte := if f then 1 else 0

/-- ADD: the unmasked sum exceeds 255 (spec/41_register_alu.md R130). -/
def carryFlag (a b : Byte) : Bool := 255 < a.toNat + b.toNat

/-- SUBTRACT and ISUBTRACT: the minuend is strictly greater (spec/41_register_alu.md R131, R133,
90_conflicts.md C12). -/
def greaterFlag (a b : Byte) : Bool := b.toNat < a.toNat

/-- RSHIFT: the old bit 0 (spec/41_register_alu.md R132). -/
def lowBitFlag (a : Byte) : Bool := a.getLsbD 0

/-- LSHIFT: the old bit 7 (spec/41_register_alu.md R134). -/
def highBitFlag (a : Byte) : Bool := a.getLsbD 7

/-- ADD_INDEX: `I + Rx` before masking exceeds 0x0FFF (spec/42_index_memory.md R151). -/
def indexOverflowFlag (index : Word) (b : Byte) : Bool := 0x0FFF < index.toNat + b.toNat

end Sys2Proof.Machine
end

