-- ==== Sys2Proof/Machine/Memory.lean ====
section
/-!
DEFINITION. Memory `M` (spec/20_memory.md): its contents after reset, reading and writing one byte, and the
block transfers of the instructions, which check every address before any effect (R54, R156).
-/
namespace Sys2Proof.Machine

/-- What an address reads as while no pair lists it: its byte after reset with the empty image, the
font's bytes at `FONT_OFFSET` and zero elsewhere (spec/10_state.md R39, R41, R254). -/
def resetByte (a : Nat) : Byte :=
  if Config.fontOffset ≤ a then (Config.fontData[a - Config.fontOffset]?).getD 0 else 0

/-- The canonical form: addresses strictly rise, lie in the address space (R50), and no pair says what an
unlisted address reads as anyway. -/
abbrev Memory.wf (m : Memory) : Prop :=
  m.Pairwise (fun c d => c.1 < d.1) ∧ ∀ c ∈ m, c.1 < Config.memSize ∧ c.2 ≠ resetByte c.1

/-- `M[a]`, for an address in range (R52). -/
def memRead : Memory → Nat → Byte
  | [], a => resetByte a
  | c :: m, a => if c.1 = a then c.2 else memRead m a

/-- `M[a] <- b`, for an address in range (R53), in canonical form. -/
def memWrite : Memory → Nat → Byte → Memory
  | [], a, b => if b = resetByte a then [] else [(a, b)]
  | c :: m, a, b =>
    if c.1 < a then c :: memWrite m a b
    else if c.1 = a then if b = resetByte a then m else (a, b) :: m
    else if b = resetByte a then c :: m else (a, b) :: c :: m

/-- The bytes at `base`, `base + 1`, …, `base + n - 1`, all in range. -/
def memReadAll (m : Memory) (base n : Nat) : List Byte :=
  (List.range n).map fun k => memRead m (base + k)

/-- Write the bytes in order to `base`, `base + 1`, …, all in range. -/
def memWriteAll : Memory → Nat → List Byte → Memory
  | m, _, [] => m
  | m, base, b :: bs => memWriteAll (memWrite m base b) (base + 1) bs

/-- Every address of the `n` bytes from `base` is below `MEM_SIZE`; no address is touched when `n = 0`
(R54, spec/43_display.md R173). -/
def blockInRange (base n : Nat) : Bool :=
  n == 0 || base + n ≤ Config.memSize

/-- Read a block through `MemRead`, or fault with `AddressOutOfRange(MEM_SIZE)`
(R52, R54, spec/42_index_memory.md R155, spec/43_display.md R173). -/
def readBlock (m : Memory) (base n : Nat) : Except FaultReason (List Byte) :=
  if blockInRange base n then .ok (memReadAll m base n)
  else .error (.addressOutOfRange Config.memSize)

/-- Write a block through `MemWrite`, or fault with `AddressOutOfRange(MEM_SIZE)` and write nothing
(R53, R54, spec/42_index_memory.md R153, R154). -/
def writeBlock (m : Memory) (base : Nat) (bs : List Byte) : Except FaultReason Memory :=
  if blockInRange base bs.length then .ok (memWriteAll m base bs)
  else .error (.addressOutOfRange Config.memSize)

end Sys2Proof.Machine
end

