-- ==== Sys2Proof/Machine/Ops.lean ====
section
/-!
DEFINITION. The named operations over State: registers, flag, stack, trace, the draws, and the three ways the
executor ends (spec/30_encoding.md R76): completed, retry, fault.
-/
namespace Sys2Proof.Machine

/-- `x[r]` (spec/10_state.md R20). -/
def State.reg (s : State) (r : Reg) : Byte := s.v[r.val]'r.isLt

/-- `x[r] <- b` (R20). -/
def State.setReg (s : State) (r : Reg) (b : Byte) : State :=
  { s with v := s.v.set r.val b r.isLt }

/-- `VF`, the flag register (spec/10_state.md R21). -/
abbrev flagReg : Reg := 15

/-- Write VF as a flag (R21, R37). -/
def State.setFlag (s : State) (f : Bool) : State := s.setReg flagReg (flagByte f)

/-- Write the result, then the flag, so that the flag wins when the result register is VF
(spec/41_register_alu.md R126). -/
def State.setRegFlag (s : State) (r : Reg) (b : Byte) (f : Bool) : State :=
  (s.setReg r b).setFlag f

/-- `x[from], x[from + 1], … <- the bytes` (spec/42_index_memory.md R155); registers end at VF. -/
def loadRegs (v : Vector Byte 16) (from_ : Nat) : List Byte → Vector Byte 16
  | [] => v
  | b :: bs => if h : from_ < 16 then loadRegs (v.set from_ b h) (from_ + 1) bs else v

/-- `x[0] .. x[x]`, as STORE writes them (spec/42_index_memory.md R154). -/
def State.regsUpTo (s : State) (x : Reg) : List Byte := s.v.toList.take (x.val + 1)

/-- `push(v)`: the new entry is last (spec/10_state.md R25). -/
def State.push (s : State) (w : Word) : State := { s with stack := s.stack ++ [w] }

/-- `emit E`: append an output event (spec/60_exceptions.md R246). -/
def State.emit (s : State) (e : OutEvent) : State := { s with out := s.out ++ [e] }

/-- A clock reading takes effect: never below an earlier one (spec/60_exceptions.md R241). -/
def advanceClock (last reading : Time) : Time := if last ≤ reading then reading else last

/-- `now(p)`: take the next reading; it is `clock` in the state answered (R241). -/
def State.readClock (s : State) : State :=
  match s.draws.readings with
  | r :: rest =>
    { s with clock := advanceClock s.clock r, draws := { s.draws with readings := rest } }
  | [] =>
    { s with
      clock := advanceClock s.clock (Config.clockReading s.draws.drawn)
      draws := { s.draws with drawn := s.draws.drawn + 1 } }

/-- The byte the next `rand8()` draws (spec/41_register_alu.md R140). -/
def State.nextRandom (s : State) : Byte :=
  match s.draws.randoms with
  | r :: _ => r
  | [] => Config.rand8 s.draws.drawn

/-- The draw of `rand8()` has been taken (R140). -/
def State.dropRandom (s : State) : State :=
  match s.draws.randoms with
  | _ :: rest => { s with draws := { s.draws with randoms := rest } }
  | [] => { s with draws := { s.draws with drawn := s.draws.drawn + 1 } }

/-! How an instruction ends. While it runs, `pc` is its address plus 2 (spec/30_encoding.md R75). -/

/-- The address `a` the running instruction was fetched from (R75). -/
def State.instrAddr (s : State) : Word := s.pc - 2

/-- Taking a fault, for the fetch and for every instruction: `status` says why, `pc` holds the faulting
instruction's address, and nothing else changes (spec/60_exceptions.md R213, R214). -/
def takeFault (s : State) (a : Word) (r : FaultReason) : Outcome :=
  .next { s with status := .faulted r, pc := a }

/-- Outcome `Completed`: the instruction's effects stand (R76). -/
def completed (s : State) : Outcome := .next s

/-- Outcome `Retry`: `pc` is the retried instruction's address again (R76, R77). -/
def retry (s : State) : Outcome := .next { s with pc := s.instrAddr }

/-- Outcome `Fault(reason)` of the running instruction (R76). -/
def raiseFault (s : State) (r : FaultReason) : Outcome := takeFault s s.instrAddr r

/-- A conditional skip: 2 more on top of the fetch's 2 (spec/40_control_flow.md R103, R108). -/
def skipIf (c : Bool) (s : State) : Outcome :=
  completed (if c then { s with pc := s.pc + 2 } else s)

end Sys2Proof.Machine
end

