-- ==== Sys2Proof/Machine/Alu.lean ====
section
/-!
DEFINITION. Register set, add, and the arithmetic and logic group (spec/41_register_alu.md). Operands are read
from the state before the instruction; the result is written first and the flag last (R126). All arithmetic
wraps modulo 256 (R127).
-/
namespace Sys2Proof.Machine

/-- SET_IMM (R120). -/
def execSetImm (x : Reg) (nn : Byte) (s : State) : Outcome :=
  completed (s.setReg x nn)

/-- ADD_IMM: no flag (R121). -/
def execAddImm (x : Reg) (nn : Byte) (s : State) : Outcome :=
  completed (s.setReg x (s.reg x + nn))

/-- SET_REG (R122). -/
def execSetReg (x y : Reg) (s : State) : Outcome :=
  completed (s.setReg x (s.reg y))

/-- OR: no flag (R123). -/
def execOr (x y : Reg) (s : State) : Outcome :=
  completed (s.setReg x (s.reg x ||| s.reg y))

/-- AND: no flag (R124). -/
def execAnd (x y : Reg) (s : State) : Outcome :=
  completed (s.setReg x (s.reg x &&& s.reg y))

/-- XOR: no flag (R125). -/
def execXor (x y : Reg) (s : State) : Outcome :=
  completed (s.setReg x (s.reg x ^^^ s.reg y))

/-- ADD, with the carry in VF (R130). -/
def execAdd (x y : Reg) (s : State) : Outcome :=
  completed (s.setRegFlag x (s.reg x + s.reg y) (carryFlag (s.reg x) (s.reg y)))

/-- SUBTRACT `Rx - Ry`, VF = 1 when `Rx > Ry` (R131). -/
def execSubtract (x y : Reg) (s : State) : Outcome :=
  completed (s.setRegFlag x (s.reg x - s.reg y) (greaterFlag (s.reg x) (s.reg y)))

/-- RSHIFT of `Rx` alone, VF = old bit 0 (R132). -/
def execRshift (x : Reg) (s : State) : Outcome :=
  completed (s.setRegFlag x (s.reg x >>> 1) (lowBitFlag (s.reg x)))

/-- ISUBTRACT `Ry - Rx`, VF = 1 when `Ry > Rx` (R133). -/
def execIsubtract (x y : Reg) (s : State) : Outcome :=
  completed (s.setRegFlag x (s.reg y - s.reg x) (greaterFlag (s.reg y) (s.reg x)))

/-- LSHIFT of `Rx` alone, VF = old bit 7 (R134). -/
def execLshift (x : Reg) (s : State) : Outcome :=
  completed (s.setRegFlag x (s.reg x <<< 1) (highBitFlag (s.reg x)))

/-- RANDOM: a drawn byte, masked (R140, R141). -/
def execRandom (x : Reg) (nn : Byte) (s : State) : Outcome :=
  completed (s.dropRandom.setReg x (s.nextRandom &&& nn))

end Sys2Proof.Machine
end

