-- ==== Sys2Proof/Machine/Control.lean ====
section
/-!
DEFINITION. The control-flow instructions (spec/40_control_flow.md). Each runs with `pc = a + 2`.
-/
namespace Sys2Proof.Machine

/-- RETURN: pop the newest entry into `pc`; a no-op on an empty stack (R100). -/
def execRet (s : State) : Outcome :=
  match s.stack.getLast? with
  | none => completed s
  | some target => completed { s with pc := target, stack := s.stack.dropLast }

/-- JUMP (R101). -/
def execJump (nnn : Addr12) (s : State) : Outcome :=
  completed { s with pc := zextAddr nnn }

/-- CALL: fault on a full stack, else push `a + 2` and jump (R102). -/
def execCall (nnn : Addr12) (s : State) : Outcome :=
  if s.stack.length = Config.stackDepth then raiseFault s .stackOverflow
  else completed { s.push s.pc with pc := zextAddr nnn }

/-- SKIP_EQ_IMM (R103). -/
def execSkipEqImm (x : Reg) (nn : Byte) (s : State) : Outcome :=
  skipIf (s.reg x == nn) s

/-- SKIP_NE_IMM (R104). -/
def execSkipNeImm (x : Reg) (nn : Byte) (s : State) : Outcome :=
  skipIf (s.reg x != nn) s

/-- SKIP_EQ_REG (R105). -/
def execSkipEqReg (x y : Reg) (s : State) : Outcome :=
  skipIf (s.reg x == s.reg y) s

/-- SKIP_NE_REG (R106). -/
def execSkipNeReg (x y : Reg) (s : State) : Outcome :=
  skipIf (s.reg x != s.reg y) s

/-- JUMP_OFFSET: the register is always V0 (R107). -/
def execJumpOffset (nnn : Addr12) (s : State) : Outcome :=
  completed { s with pc := offsetTarget nnn (s.reg 0) }

end Sys2Proof.Machine
end

