-- ==== Sys2Proof/Machine/Framebuffer.lean ====
section
/-!
DEFINITION. The framebuffer controller (spec/43_display.md R170, R171) and the drawing loop of DISPLAY
(R173).
-/
namespace Sys2Proof.Machine

/-- The blank framebuffer `fb_clear()` leaves (R170). -/
def blankFramebuffer : Framebuffer :=
  Vector.replicate Config.screenW (Vector.replicate Config.screenH false)

/-- The cell `fb[cx][cy]`; there is none out of bounds, and `false` stands for it (spec/10_state.md R33). -/
def cellAt (fb : Framebuffer) (cx cy : Nat) : Bool :=
  if h : cx < Config.screenW ∧ cy < Config.screenH then (fb[cx]'h.1)[cy]'h.2 else false

/-- `flip(cx, cy)`: toggle a cell, and say whether it went from set to unset; no effect out of bounds
(R171). -/
def flip (fb : Framebuffer) (cx cy : Nat) : Framebuffer × Bool :=
  if h : cx < Config.screenW ∧ cy < Config.screenH then
    let old := (fb[cx]'h.1)[cy]'h.2
    (fb.set cx ((fb[cx]'h.1).set cy (!old) h.2) h.1, old)
  else (fb, false)

/-- The inner loop of DISPLAY over the bits of one sprite row (R173): `left` bits remain, the next one is
`s[left - 1]` at column `x0 + (8 - left)`; the row ends at the right edge. The Bool is the collision so far. -/
def drawBits (s : Byte) (x0 cy : Nat) : Nat → Framebuffer × Bool → Framebuffer × Bool
  | 0, acc => acc
  | left + 1, acc =>
    let cx := x0 + (7 - left)
    if Config.screenW ≤ cx then acc
    else if s.getLsbD left then
      drawBits s x0 cy left ((flip acc.1 cx cy).1, acc.2 || (flip acc.1 cx cy).2)
    else drawBits s x0 cy left acc

/-- The outer loop of DISPLAY over the sprite rows that are drawn (R173). -/
def drawRows (x0 : Nat) : Nat → List Byte → Framebuffer × Bool → Framebuffer × Bool
  | _, [], acc => acc
  | cy, s :: rows, acc => drawRows x0 (cy + 1) rows (drawBits s x0 cy 8 acc)

end Sys2Proof.Machine
end

