-- ==== Sys2Proof/Machine/Display.lean ====
section
/-!
DEFINITION. CLEAR and DISPLAY (spec/43_display.md).
-/
namespace Sys2Proof.Machine

/-- CLEAR: every cell 0, and the event `Cleared` (R172). -/
def execClear (s : State) : Outcome :=
  completed ({ s with fb := blankFramebuffer }.emit .cleared)

/-- The column DISPLAY starts at: `x[X] mod SCREEN_W` (R173). -/
def startColumn (s : State) (x : Reg) : Nat := (s.reg x).toNat % Config.screenW

/-- The row DISPLAY starts at: `x[Y] mod SCREEN_H` (R173). -/
def startRow (s : State) (y : Reg) : Nat := (s.reg y).toNat % Config.screenH

/-- How many sprite rows are drawn: those at or past the bottom edge are not (R173). -/
def drawnRows (s : State) (y : Reg) (n : Nibble) : Nat :=
  min n.toNat (Config.screenH - startRow s y)

/-- DISPLAY: the coordinates are sampled first, the addresses of the drawn rows are checked, then the
sprite is drawn; VF is the collision of the whole draw (R173). -/
def execDisplay (x y : Reg) (n : Nibble) (s : State) : Outcome :=
  match readBlock s.mem (baseAddress s.index) (drawnRows s y n) with
  | .ok sprite =>
    let drawn := drawRows (startColumn s x) (startRow s y) sprite (s.fb, false)
    completed ({ s with fb := drawn.1 }.setFlag drawn.2)
  | .error r => raiseFault s r

end Sys2Proof.Machine
end

