-- ==== Sys2Proof/Machine/IndexMemory.lean ====
section
/-!
DEFINITION. The index register, the font, BCD and the block transfers (spec/42_index_memory.md). No
access moves `I`; addresses are `I + k`, unmasked and checked before any effect (R156).
-/
namespace Sys2Proof.Machine

/-- SET_INDEX (R150). -/
def execSetIndex (nnn : Addr12) (s : State) : Outcome :=
  completed { s with index := zextAddr nnn }

/-- ADD_INDEX: VF = 1 when the sum before masking exceeds 0x0FFF (R151). -/
def execAddIndex (x : Reg) (s : State) : Outcome :=
  completed
    ({ s with index := addIndexResult s.index (s.reg x) }.setFlag
      (indexOverflowFlag s.index (s.reg x)))

/-- FONT: only the low nibble of `Rx` counts, and no memory is read (R152). -/
def execFont (x : Reg) (s : State) : Outcome :=
  completed { s with index := fontAddress (s.reg x) }

/-- BINARY_CODED_DECIMAL: hundreds, tens and units at `I`, `I+1`, `I+2` (R153). -/
def execBinaryCodedDecimal (x : Reg) (s : State) : Outcome :=
  match writeBlock s.mem (baseAddress s.index) (bcdDigits (s.reg x)) with
  | .ok m => completed { s with mem := m }
  | .error r => raiseFault s r

/-- STORE: V0 to Vx, inclusive, at `I` and up (R154). -/
def execStore (x : Reg) (s : State) : Outcome :=
  match writeBlock s.mem (baseAddress s.index) (s.regsUpTo x) with
  | .ok m => completed { s with mem := m }
  | .error r => raiseFault s r

/-- LOAD: V0 to Vx, inclusive, from `I` and up (R155). -/
def execLoad (x : Reg) (s : State) : Outcome :=
  match readBlock s.mem (baseAddress s.index) (x.val + 1) with
  | .ok bytes => completed { s with v := loadRegs s.v 0 bytes }
  | .error r => raiseFault s r

end Sys2Proof.Machine
end

