-- ==== Sys2Proof/Machine/KeypadTimers.lean ====
section
/-!
DEFINITION. The keypad and timer instructions (spec/44_keypad_timers.md). No instruction writes the key
latch (R190).
-/
namespace Sys2Proof.Machine

/-- The key currently marked pressed, if any (R190, spec/10_state.md R30). A latch whose two fields
disagree is reached by no run; it counts as no key (log entry 7). -/
def State.latchedKey (s : State) : Option Key := if s.pressed then s.key else none

/-- `pressed and x[X] = key`, on all 8 bits of `Rx` (R191). -/
def State.keyMatches (s : State) (x : Reg) : Bool :=
  match s.latchedKey with
  | some k => s.reg x == keyByte k
  | none => false

/-- SKIP_IF_KEY (R191). -/
def execSkipIfKey (x : Reg) (s : State) : Outcome :=
  skipIf (s.keyMatches x) s

/-- SKIP_IF_NOT_KEY: no key counts as not equal (R192). -/
def execSkipIfNotKey (x : Reg) (s : State) : Outcome :=
  skipIf (!s.keyMatches x) s

/-- GET_KEY: the latched key, else retry (R193). -/
def execGetKey (x : Reg) (s : State) : Outcome :=
  match s.latchedKey with
  | some k => completed (s.setReg x (keyByte k))
  | none => retry s

/-- READ_DELAY_TIMER (R194). -/
def execReadDelayTimer (x : Reg) (s : State) : Outcome :=
  completed (s.setReg x s.dt)

/-- SET_DELAY_TIMER: `DT <- x[X]`, `t_ref <- now(exec)` (R195). -/
def execSetDelayTimer (x : Reg) (s : State) : Outcome :=
  let s' := s.readClock
  completed { s' with dt := s.reg x, tRef := s'.clock }

/-- SET_BEAP_TIMER: `ST <- x[X]`, `t_ref <- now(exec)` (R196). -/
def execSetBeapTimer (x : Reg) (s : State) : Outcome :=
  let s' := s.readClock
  completed { s' with st := s.reg x, tRef := s'.clock }

end Sys2Proof.Machine
end

