-- ==== Sys2Proof/Machine/Unknown.lean ====
section
/-!
DEFINITION. UNKNOWN (spec/60_exceptions.md R211).
-/
namespace Sys2Proof.Machine

/-- UNKNOWN: a no-op that reports its address and its word (R211). -/
def execUnknown (w : Word) (s : State) : Outcome :=
  completed (s.emit (.diagnostic s.instrAddr w))

end Sys2Proof.Machine
end

