-- ==== Sys2Proof/Machine/Scheduler.lean ====
section
/-!
DEFINITION. The scheduler iteration (spec/60_exceptions.md R230 to R235) and the instruction cycle inside it
(spec/30_encoding.md R75). `KEYMAP` is an argument here; `step` gives the phases `Config.keymap`.
-/
namespace Sys2Proof.Machine

/-- The events the host hands over for this iteration: the next list of the draws, else a free one
(R240). -/
def State.nextEvents (s : State) : List HostEvent :=
  match s.draws.events with
  | es :: _ => es
  | [] => Config.hostEvents s.draws.drawn

/-- The draws once an iteration's events have been handed over (R240). -/
def Draws.dropEvents (d : Draws) : Draws :=
  match d.events with
  | _ :: rest => { d with events := rest }
  | [] => { d with drawn := d.drawn + 1 }

/-- They have been handed over (R240). -/
def State.dropEvents (s : State) : State := { s with draws := s.draws.dropEvents }

/-- An accepted key-down event: the latch takes the key and a window opens at `now(poll)` (R231). -/
def State.latchKey (s : State) (k : Key) : State :=
  let s' := s.readClock
  { s' with key := some k, pressed := true, keyRef := s'.clock }

/-- Phase 1 over the events in order: a quit halts at once and drops the rest; a key-down the map
knows latches its key; any other event is ignored (R231). -/
def inputPhase (keymap : HostKey → Option Key) : List HostEvent → State → State
  | [], s => s
  | .quit :: _, s => { s with status := .halted }
  | .keyDown h :: es, s =>
    match keymap h with
    | some k => inputPhase keymap es (s.latchKey k)
    | none => inputPhase keymap es s
  | .other :: es, s => inputPhase keymap es s

/-- The word at `pc`, or the fault of a fetch that reaches `MEM_SIZE`: the lowest address out of range
(spec/30_encoding.md R71, R75). -/
def fetch (s : State) : Except FaultReason Word :=
  let a := s.pc.toNat
  if Config.memSize ≤ a + 1 then
    .error (.addressOutOfRange (if a < Config.memSize then a + 1 else a))
  else .ok (wordOfBytes (memRead s.mem a) (memRead s.mem (a + 1)))

/-- Phase 2, one cycle: fetch, add 2 to `pc`, decode, execute; a faulting fetch decodes nothing
(R232, spec/30_encoding.md R75). -/
def cycle (s : State) : Outcome :=
  match fetch s with
  | .error r => takeFault s s.pc r
  | .ok w => exec (decodeWord w) { s with pc := s.pc + 2 }

/-- One tick of one timer: a timer at 0 stays at 0 (spec/10_state.md R26, R27). -/
def countDown (due : Bool) (t : Byte) : Byte :=
  if t = 0 then 0 else if due then t - 1 else t

/-- Phase 3: at most one tick, and the reference moves by exactly `TICK` (R233). -/
def timerPhase (s : State) : State :=
  let s' := s.readClock
  let due : Bool := Config.tick ≤ s'.clock - s'.tRef
  { s' with
    tRef := if due then s'.tRef + Config.tick else s'.tRef
    dt := countDown due s'.dt
    st := countDown due s'.st }

/-- Phase 4: signal the tone while `ST > 0` (R234). -/
def soundPhase (s : State) : State :=
  if s.st = 0 then s else s.emit .playSound

/-- Phase 5: the latch is cleared once the window is over (R235). -/
def debouncePhase (s : State) : State :=
  let s' := s.readClock
  let expired : Bool := Config.debounce ≤ s'.clock - s'.keyRef
  { s' with
    pressed := s'.pressed && !expired
    key := s'.key.filter fun _ => !expired }

/-- Phases 3 to 5, which a fault skips (R230, R214). -/
def finishIteration (s : State) : State :=
  match s.status with
  | .running => debouncePhase (soundPhase (timerPhase s))
  | .halted | .faulted _ => s

/-- Phases 2 to 5, which a quit skips (R230, R231). -/
def runCycle (s : State) : Outcome :=
  match s.status with
  | .running =>
    match cycle s with
    | .next t => .next (finishIteration t)
    | .fault f => .fault f
    | .refused r => .refused r
  | .halted | .faulted _ => .next s

/-- One iteration (R230). None runs in a final status (spec/10_state.md R35): the run has ended
(R249, log entry 6). -/
def iteration (keymap : HostKey → Option Key) (s : State) : Outcome :=
  match s.status with
  | .running => runCycle (inputPhase keymap s.nextEvents s.dropEvents)
  | .halted => .fault .halted
  | .faulted r => .fault (.faulted r)

/-! The host's question: which instruction runs when a given word stands where the next one is fetched. -/

/-- The event lists to come without a quit in that of the next iteration. Where none is listed, the next
one would be free and could hold a quit, so a list with no events is put there. -/
def quietEvents : List (List HostEvent) → List (List HostEvent)
  | [] => [[]]
  | es :: rest => es.filter (fun e => e != .quit) :: rest

/-- Where the next fetch can find two bytes: `pc`, or `LOAD_BASE` where `pc` has none. -/
def fetchAddress (s : State) : Word :=
  if s.pc.toNat + 1 < Config.memSize then s.pc else BitVec.ofNat 16 Config.loadBase

/-- The state with a word where the next iteration fetches it, and with what else that takes: status
`Running` and no quit in the way (R230, R231). A running, fetchable state whose next event list is listed
and holds no quit keeps all but the two bytes. -/
def placeWord (s : State) (w : Word) : State :=
  { s with
    mem := memWriteAll s.mem (fetchAddress s).toNat (bytesOfWord w)
    pc := fetchAddress s
    status := .running
    draws := { s.draws with events := quietEvents s.draws.events } }

end Sys2Proof.Machine
end

