-- ==== Sys2Proof/Machine/Step.lean ====
section
/-!
DEFINITION. One step of the machine is one iteration of the scheduler (spec/60_exceptions.md R230, spec/00_scope.md
R3), under the parameter `KEYMAP`.
-/
namespace Sys2Proof.Machine

/-- One step: one iteration (R230). -/
def step (s : State) : Host.Outcome State Fault Refusal :=
  iteration Config.keymap s

/-- The state whose very next step fetches and runs the table's word `w` of `nbits` bits (log entry 5). -/
def State.withFetchWord (s : State) (nbits w : Nat) : State :=
  placeWord s (BitVec.ofNat 16 (w % 2 ^ nbits))

end Sys2Proof.Machine
end

