-- ==== Sys2Proof/Machine/Boot.lean ====
section
/-!
DEFINITION. Reset with a program image and a clock reading `T0` (spec/70_reset_and_hazards.md R250, R255).
-/
namespace Sys2Proof.Machine

/-- The longest image that fits (R255). -/
def maxImage : Nat := Config.memSize - Config.loadBase

/-- Reset with the image copied verbatim to `LOAD_BASE` and up, and both references at `T0`
(R250, spec/10_state.md R39). An image that does not fit never starts the block (R255, R256). -/
def boot (image : List Byte) (t0 : Time) : Option State :=
  if image.length ≤ maxImage then
    some { State.reset with
      mem := memWriteAll State.reset.mem Config.loadBase image
      tRef := t0
      keyRef := t0
      clock := t0 }
  else none

end Sys2Proof.Machine
end

