-- ==== Sys2Proof/Safety.lean ====
section
/-!
DEFINITION. What a sound state of the block is, and the words claims are stated in: the invariants reset
establishes and every rule relies on (spec/70_reset_and_hazards.md R253, spec/10_state.md R23, R24, R25, R30), what
each instruction may write (spec/10_state.md R22, R37), which cells a sprite covers (spec/43_display.md R173), and
runs that set no timer (spec/60_exceptions.md R236).
-/
namespace Sys2Proof.Machine

/-- The invariant of the block. -/
structure State.Inv (s : State) : Prop where
  /-- Bits 15..12 of `I` are zero (spec/10_state.md R24, R36). -/
  index_le : s.index.toNat ≤ 0x0FFF
  /-- `pc` never exceeds 0x10FE (spec/10_state.md R23). -/
  pc_le : s.pc.toNat ≤ 0x10FE
  /-- The stack is within its capacity (spec/10_state.md R25, R36). -/
  stack_len : s.stack.length ≤ Config.stackDepth
  /-- A saved `pc` is the address after a CALL that was fetched, so at most 0x1000 (R23, R25). -/
  stack_le : ∀ w ∈ s.stack, w.toNat ≤ 0x1000
  /-- `pressed` exactly when there is a key (spec/10_state.md R30). -/
  latch : s.pressed = s.key.isSome
  /-- Memory is in its canonical form. -/
  mem_wf : s.mem.wf
  /-- The references are non-negative instants (spec/10_state.md R29, R31). -/
  tRef_nonneg : 0 ≤ s.tRef
  keyRef_nonneg : 0 ≤ s.keyRef
  /-- No reference is ahead of the last clock reading (R233, R241). -/
  tRef_le : s.tRef ≤ s.clock
  keyRef_le : s.keyRef ≤ s.clock

/-- The instructions that write VF as a flag (spec/10_state.md R21, R37). -/
def writesFlag : Instr → Bool
  | .add _ _ | .subtract _ _ | .rshift _ | .isubtract _ _ | .lshift _ => true
  | .addIndex _ | .display _ _ _ => true
  | .clear | .ret | .jump _ | .call _ | .jumpOffset _ | .setIndex _ | .unknown _ => false
  | .skipEqImm _ _ | .skipNeImm _ _ | .skipEqReg _ _ | .skipNeReg _ _ => false
  | .setImm _ _ | .addImm _ _ | .setReg _ _ | .or _ _ | .and _ _ | .xor _ _ | .random _ _ => false
  | .skipIfKey _ | .skipIfNotKey _ | .readDelayTimer _ | .getKey _ => false
  | .setDelayTimer _ | .setBeapTimer _ | .font _ | .binaryCodedDecimal _ => false
  | .store _ | .load _ => false

/-- The registers an instruction writes as its destination: the rows `Vx` and "V0..Vx" of the column
"written by" (spec/10_state.md R22). -/
def writesDest : Instr → Reg → Bool
  | .setImm x _, r | .addImm x _, r | .setReg x _, r | .or x _, r | .and x _, r | .xor x _, r => r = x
  | .add x _, r | .subtract x _, r | .rshift x, r | .isubtract x _, r | .lshift x, r => r = x
  | .random x _, r | .getKey x, r | .readDelayTimer x, r => r = x
  | .load x, r => r ≤ x
  | .clear, _ | .ret, _ | .jump _, _ | .call _, _ | .jumpOffset _, _ | .setIndex _, _ => false
  | .skipEqImm _ _, _ | .skipNeImm _ _, _ | .skipEqReg _ _, _ | .skipNeReg _ _, _ => false
  | .display _ _ _, _ | .skipIfKey _, _ | .skipIfNotKey _, _ | .unknown _, _ => false
  | .setDelayTimer _, _ | .setBeapTimer _, _ | .addIndex _, _ | .font _, _ => false
  | .binaryCodedDecimal _, _ | .store _, _ => false

/-- The number of bytes an instruction writes at `I` and up (spec/20_memory.md R51). -/
def bytesWritten : Instr → Nat
  | .binaryCodedDecimal _ => 3
  | .store x => x.val + 1
  | .clear | .ret | .jump _ | .call _ | .jumpOffset _ | .setIndex _ | .unknown _ => 0
  | .skipEqImm _ _ | .skipNeImm _ _ | .skipEqReg _ _ | .skipNeReg _ _ => 0
  | .setImm _ _ | .addImm _ _ | .setReg _ _ | .or _ _ | .and _ _ | .xor _ _ | .random _ _ => 0
  | .add _ _ | .subtract _ _ | .rshift _ | .isubtract _ _ | .lshift _ => 0
  | .addIndex _ | .display _ _ _ | .font _ | .load _ => 0
  | .skipIfKey _ | .skipIfNotKey _ | .readDelayTimer _ | .getKey _ => 0
  | .setDelayTimer _ | .setBeapTimer _ => 0

/-- The instructions that set a timer, and with it `t_ref` (spec/44_keypad_timers.md R195, R196). -/
def setsTimer : Instr → Bool
  | .setDelayTimer _ | .setBeapTimer _ => true
  | .clear | .ret | .jump _ | .call _ | .jumpOffset _ | .setIndex _ | .unknown _ => false
  | .skipEqImm _ _ | .skipNeImm _ _ | .skipEqReg _ _ | .skipNeReg _ _ => false
  | .setImm _ _ | .addImm _ _ | .setReg _ _ | .or _ _ | .and _ _ | .xor _ _ | .random _ _ => false
  | .add _ _ | .subtract _ _ | .rshift _ | .isubtract _ _ | .lshift _ => false
  | .addIndex _ | .display _ _ _ | .font _ | .load _ | .store _ | .binaryCodedDecimal _ => false
  | .skipIfKey _ | .skipIfNotKey _ | .readDelayTimer _ | .getKey _ => false

/-- DISPLAY's sprite has a set bit on the cell `(cx, cy)` of the screen (spec/43_display.md R173): the row
is one of the first `N`, the column one of the eight, and the bit is read most significant first. -/
def spriteCovers (s : State) (x y : Reg) (n : Nibble) (cx cy : Nat) : Bool :=
  let x0 := (s.reg x).toNat % Config.screenW
  let y0 := (s.reg y).toNat % Config.screenH
  decide (x0 ≤ cx ∧ cx < x0 + 8 ∧ cx < Config.screenW ∧
    y0 ≤ cy ∧ cy < y0 + n.toNat ∧ cy < Config.screenH) &&
  (memRead s.mem (s.index.toNat + (cy - y0))).getLsbD (7 - (cx - x0))

/-- A run of steps of which none executes an instruction that sets a timer (spec/60_exceptions.md R236). -/
inductive UnsetRun : State → State → Prop where
  | done (s : State) : UnsetRun s s
  | next {s t u : State} (first : UnsetRun s t) (last : step t = .next u)
      (quiet : ∀ w, fetch t = .ok w → setsTimer (decodeWord w) = false) : UnsetRun s u

end Sys2Proof.Machine
end

