-- ==== Sys2Proof/Certificates/Slice0/Obligations.lean ====
section
/-!
DEFINITION. The statements for the provers. Each says which rules of the spec it formalises; a frame is said by
answering the old state with only the written fields replaced.
-/
open Sys2Proof Sys2Proof.Machine

/-! ## Reset and load -/

/-- spec/10_state.md R39, R41, R251: the reset value of every piece of state. The values rest on the spec's own
decisions D11, D19, D20; `T0 = 0` is the model's (log entry 4), so the references are only said to be
equal to the first clock reading. -/
def Obligations.ResetState : Prop :=
  (∀ r : Reg, State.reset.reg r = 0) ∧
  State.reset.index = 0 ∧ State.reset.pc = 0x200 ∧ State.reset.stack = [] ∧
  State.reset.dt = 0 ∧ State.reset.st = 0 ∧
  State.reset.key = none ∧ State.reset.pressed = false ∧
  State.reset.tRef = State.reset.clock ∧ State.reset.keyRef = State.reset.clock ∧
  (∀ cx cy, cellAt State.reset.fb cx cy = false) ∧
  State.reset.out = [] ∧ State.reset.status = .running ∧
  (List.range 80).map (fun k => memRead State.reset.mem (0x050 + k)) =
    [0xF0, 0x90, 0x90, 0x90, 0xF0, 0x20, 0x60, 0x20, 0x20, 0x70,
     0xF0, 0x10, 0xF0, 0x80, 0xF0, 0xF0, 0x10, 0xF0, 0x10, 0xF0] ++
    [0x90, 0x90, 0xF0, 0x10, 0x10, 0xF0, 0x80, 0xF0, 0x10, 0xF0,
     0xF0, 0x80, 0xF0, 0x90, 0xF0, 0xF0, 0x10, 0x20, 0x40, 0x40] ++
    [0xF0, 0x90, 0xF0, 0x90, 0xF0, 0xF0, 0x90, 0xF0, 0x10, 0xF0,
     0xF0, 0x90, 0xF0, 0x90, 0x90, 0xE0, 0x90, 0xE0, 0x90, 0xE0] ++
    [0xF0, 0x80, 0x80, 0x80, 0xF0, 0xE0, 0x90, 0x90, 0x90, 0xE0,
     0xF0, 0x80, 0xF0, 0x80, 0xF0, 0xF0, 0x80, 0xF0, 0x80, 0x80] ∧
  (∀ a, a < 0x050 ∨ 0x0A0 ≤ a → memRead State.reset.mem a = 0)

/-- spec/70_reset_and_hazards.md R250, R255, R256: an image that fits lies at 0x200 byte for byte, the rest of the
reset state is as without it, both references are `T0`; an image that does not fit starts nothing. -/
def Obligations.BootLoadsImage : Prop :=
  ∀ (image : List Byte) (t0 : Time),
    (image.length ≤ 3584 →
      ∃ s, boot image t0 = some s ∧
        s = { State.reset with mem := s.mem, tRef := t0, keyRef := t0, clock := t0 } ∧
        (∀ j (h : j < image.length), memRead s.mem (0x200 + j) = image[j]) ∧
        (∀ a, a < 0x200 ∨ 0x200 + image.length ≤ a → memRead s.mem a = memRead State.reset.mem a)) ∧
    (3584 < image.length → boot image t0 = none)

/-- spec/70_reset_and_hazards.md R253: the reset state has the invariants every rule relies on. -/
def Obligations.ResetHasInvariant : Prop := State.reset.Inv

/-- spec/70_reset_and_hazards.md R253: so has a block booted with any image at any non-negative `T0`. -/
def Obligations.BootHasInvariant : Prop :=
  ∀ (image : List Byte) (t0 : Time) (s : State), 0 ≤ t0 → boot image t0 = some s → s.Inv

/-! ## Encoding -/

/-- spec/30_encoding.md R78 to R83: words of every family, and of UNKNOWN, decode as the opcode map says. -/
def Obligations.KnownWordsDecode : Prop :=
  decodeWord 0x00E0 = .clear ∧ decodeWord 0x0FEE = .ret ∧ decodeWord 0x230A = .call 0x30A ∧
  decodeWord 0x332A = .skipEqImm 3 0x2A ∧ decodeWord 0x5121 = .skipEqReg 1 2 ∧
  decodeWord 0x653C = .setImm 5 0x3C ∧ decodeWord 0x8127 = .isubtract 1 2 ∧
  decodeWord 0x8FF6 = .rshift 15 ∧ decodeWord 0xA300 = .setIndex 0x300 ∧
  decodeWord 0xC20F = .random 2 0x0F ∧ decodeWord 0xD125 = .display 1 2 5 ∧
  decodeWord 0xE3A1 = .skipIfNotKey 3 ∧ decodeWord 0xF31E = .addIndex 3 ∧
  decodeWord 0x0123 = .unknown 0x0123 ∧ decodeWord 0x8008 = .unknown 0x8008 ∧
  decodeWord 0xE09F = .unknown 0xE09F ∧ decodeWord 0xF075 = .unknown 0xF075

/-- spec/30_encoding.md R70 to R74, R78, R84: the decoder reads back every operand of every well-formed instruction,
from its two bytes in memory order, whatever follows them. -/
def Obligations.DecodeEncode : Prop :=
  ∀ (i : Instr) (rest : List Byte), i.wellFormed = true →
    decodeBytes (encodeBytes i ++ rest) = .ok (i, rest)

/-- spec/30_encoding.md R78, R81, R82: the decoder and the opcode map agree on every word: a row that covers it
names its category, no word is covered by two rows, a word no row covers is UNKNOWN, and what is
decoded is well formed. -/
def Obligations.DecodeFollowsOpcodeMap : Prop :=
  ∀ w : Word,
    (∀ r ∈ opcodeMap, rowCovers r w = true → (decodeWord w).mnemonic = r.mnemonic) ∧
    (∀ r ∈ opcodeMap, ∀ q ∈ opcodeMap, rowCovers r w = true → rowCovers q w = true → r = q) ∧
    (isUnknownWord w = true → decodeWord w = .unknown w) ∧
    (decodeWord w).wellFormed = true

/-- spec/30_encoding.md R83: the ignored bits decode to the same instruction whatever their value. -/
def Obligations.IgnoredBits : Prop :=
  ∀ (x y : Reg) (n : Nibble),
    decodeWord (packXNN 0x0 x 0xE0) = .clear ∧ decodeWord (packXNN 0x0 x 0xEE) = .ret ∧
    decodeWord (packXYN 0x5 x y n) = .skipEqReg x y ∧ decodeWord (packXYN 0x9 x y n) = .skipNeReg x y ∧
    decodeWord (packXYN 0x8 x y 0x6) = .rshift x ∧ decodeWord (packXYN 0x8 x y 0xE) = .lshift x

/-! ## The iteration -/

/-- spec/30_encoding.md R71, spec/20_memory.md R55, R57: the fetched word has the byte at `pc` on top, at any `pc`,
odd or even, below 0xFFF. -/
def Obligations.FetchIsBigEndian : Prop :=
  ∀ s : State, s.pc.toNat + 1 < 4096 →
    ∃ w, fetch s = .ok w ∧
      w.toNat = 256 * (memRead s.mem s.pc.toNat).toNat + (memRead s.mem (s.pc.toNat + 1)).toNat

/-- spec/30_encoding.md R75, spec/60_exceptions.md R230, R232: in status `Running` with no quit among the events, when the
two bytes at `pc` decode to `i`, a step is `exec i` after the input phase with `pc` moved on by 2, and then
the timer, sound and debounce phases unless the instruction faulted. -/
def Obligations.StepRunsDecoded : Prop :=
  ∀ (s : State) (i : Instr) (rest : List Byte), s.status = .running → .quit ∉ s.nextEvents →
    s.pc.toNat + 1 < 4096 →
    decodeBytes [memRead s.mem s.pc.toNat, memRead s.mem (s.pc.toNat + 1)] = .ok (i, rest) →
    ∀ u, exec i { inputPhase Config.keymap s.nextEvents s.dropEvents with pc := s.pc + 2 } = .next u →
      (u.status = .running → step s = .next (debouncePhase (soundPhase (timerPhase u)))) ∧
      (u.status ≠ .running → step s = .next u)

/-- spec/30_encoding.md R75, spec/60_exceptions.md R213, R214, R215: a fetch that reaches 0x1000 faults with the lowest address out
of range; nothing but `status` changes after the input phase, and no later phase runs. -/
def Obligations.FetchFault : Prop :=
  ∀ s : State, s.status = .running → .quit ∉ s.nextEvents → 4096 ≤ s.pc.toNat + 1 →
    step s = .next { inputPhase Config.keymap s.nextEvents s.dropEvents with
      status := .faulted (.addressOutOfRange (if s.pc.toNat < 4096 then s.pc.toNat + 1 else s.pc.toNat)) }

/-- spec/60_exceptions.md R231, R215: a quit halts in the input phase, after the events before it and before any
after it; no instruction runs and no later phase does. The iteration's event list is used up (R240): the lists still
to come are those after it (log entry 1). -/
def Obligations.QuitHalts : Prop :=
  ∀ (s : State) (before after : List HostEvent), s.status = .running → .quit ∉ before →
    s.nextEvents = before ++ .quit :: after →
    ∃ t, step s = .next t ∧
      t = { inputPhase Config.keymap before s.dropEvents with status := .halted } ∧
      t.draws.events = s.draws.events.tail

/-- spec/60_exceptions.md R231, spec/10_state.md R30: an accepted key-down is what the latch holds after the input phase,
whatever events came before it, with its reference at the clock reading taken; events the map does not
know, and other events, change nothing. The reading (R241, read point poll) is not below the last, and is
the host's next one where State lists one not below the last (log entry 3). -/
def Obligations.KeyDownLatches : Prop :=
  ∀ (keymap : HostKey → Option Key) (es : List HostEvent) (h : HostKey) (s : State), .quit ∉ es →
    (∀ k, keymap h = some k →
      ∃ t, inputPhase keymap (es ++ [.keyDown h]) s = t ∧
        t = { s with key := some k, pressed := true, keyRef := t.clock, clock := t.clock, draws := t.draws } ∧
        s.clock ≤ t.clock ∧ (inputPhase keymap es s).clock ≤ t.clock ∧
        (∀ r rest, (inputPhase keymap es s).draws.readings = r :: rest → (inputPhase keymap es s).clock ≤ r →
          t.clock = r ∧ t.draws.readings = rest)) ∧
    (keymap h = none → inputPhase keymap (es ++ [.keyDown h]) s = inputPhase keymap es s) ∧
    inputPhase keymap (es ++ [.other]) s = inputPhase keymap es s

/-- spec/10_state.md R35, spec/60_exceptions.md R248: no iteration runs in a final status; nothing leaves it. -/
def Obligations.FinalStatusStops : Prop :=
  ∀ s : State, s.status ≠ .running → ∀ t, step s ≠ .next t

/-- spec/60_exceptions.md R233, R241: the timer phase takes a reading, and at most one tick: when `TICK` has elapsed
the reference moves by exactly `TICK` and each timer above zero loses 1; otherwise nothing moves but the
clock. The reading is the host's next one where State lists one not below the last (log entry 3). -/
def Obligations.TimerPhaseTicks : Prop :=
  ∀ s : State, ∃ t, timerPhase s = t ∧ s.clock ≤ t.clock ∧
    (∀ r rest, s.draws.readings = r :: rest → s.clock ≤ r → t.clock = r ∧ t.draws.readings = rest) ∧
    t = { s with tRef := t.tRef, dt := t.dt, st := t.st, clock := t.clock, draws := t.draws } ∧
    (1 / 60 ≤ t.clock - s.tRef →
      t.tRef = s.tRef + 1 / 60 ∧
      (0 < s.dt.toNat → t.dt.toNat + 1 = s.dt.toNat) ∧ (s.dt.toNat = 0 → t.dt.toNat = 0) ∧
      (0 < s.st.toNat → t.st.toNat + 1 = s.st.toNat) ∧ (s.st.toNat = 0 → t.st.toNat = 0)) ∧
    (t.clock - s.tRef < 1 / 60 → t.tRef = s.tRef ∧ t.dt = s.dt ∧ t.st = s.st)

/-- spec/60_exceptions.md R234: the sound phase emits `PlaySound` exactly when `ST > 0`, and changes nothing else. -/
def Obligations.SoundPhaseSignals : Prop :=
  ∀ s : State,
    (0 < s.st.toNat → soundPhase s = { s with out := s.out ++ [.playSound] }) ∧
    (s.st.toNat = 0 → soundPhase s = s)

/-- spec/60_exceptions.md R235, R241: the debounce phase takes a reading, and clears the latch exactly when the window
is over; nothing else changes but the clock. The reading is the host's next one where State lists one not
below the last (log entry 3). -/
def Obligations.DebounceClears : Prop :=
  ∀ s : State, ∃ t, debouncePhase s = t ∧ s.clock ≤ t.clock ∧
    (∀ r rest, s.draws.readings = r :: rest → s.clock ≤ r → t.clock = r ∧ t.draws.readings = rest) ∧
    t = { s with key := t.key, pressed := t.pressed, clock := t.clock, draws := t.draws } ∧
    (1 / 60 ≤ t.clock - s.keyRef → t.key = none ∧ t.pressed = false) ∧
    (t.clock - s.keyRef < 1 / 60 → t.key = s.key ∧ t.pressed = s.pressed)

/-! ## Control flow -/

/-- spec/40_control_flow.md R100: RETURN pops the newest entry into `pc`, and is a no-op on an empty stack. -/
def Obligations.ReturnPops : Prop :=
  (∀ (s : State) (below : List Word) (newest : Word), s.stack = below ++ [newest] →
    exec .ret s = .next { s with pc := newest, stack := below }) ∧
  (∀ s : State, s.stack = [] → exec .ret s = .next s)

/-- spec/40_control_flow.md R101, R107: JUMP goes to `NNN`, JUMP_OFFSET to `NNN + V0` with no mask; nothing else
changes, odd targets included. -/
def Obligations.JumpTargets : Prop :=
  ∀ (s : State) (nnn : Addr12),
    (∃ p : Word, p.toNat = nnn.toNat ∧ exec (.jump nnn) s = .next { s with pc := p }) ∧
    (∃ p : Word, p.toNat = nnn.toNat + (s.reg 0).toNat ∧
      exec (.jumpOffset nnn) s = .next { s with pc := p })

/-- spec/40_control_flow.md R102, spec/60_exceptions.md R213, R214: below the capacity CALL pushes `pc` as the newest entry and
jumps; at the capacity it faults, with `pc` the CALL's address and nothing else changed. -/
def Obligations.CallPushesOrOverflows : Prop :=
  ∀ (s : State) (nnn : Addr12),
    (s.stack.length < 16 →
      ∃ p : Word, p.toNat = nnn.toNat ∧
        exec (.call nnn) s = .next { s with stack := s.stack ++ [s.pc], pc := p }) ∧
    (s.stack.length = 16 →
      exec (.call nnn) s = .next { s with status := .faulted .stackOverflow, pc := s.pc - 2 })

/-- spec/40_control_flow.md R109, on the machine: a CALL at `c`, then any steps that leave the stack as the CALL left it,
then a RETURN, resume at `c + 2` with the stack as before the CALL. -/
def Obligations.CallReturnLaw : Prop :=
  ∀ (s t u v : State) (nnn : Addr12) (w1 w2 : Word), s.stack.length < 16 →
    step s = .next t → .quit ∉ s.nextEvents → fetch s = .ok w1 → decodeWord w1 = .call nnn →
    u.stack = t.stack →
    step u = .next v → .quit ∉ u.nextEvents → fetch u = .ok w2 → decodeWord w2 = .ret →
    v.pc = s.pc + 2 ∧ v.stack = s.stack ∧ t.pc = nnn.setWidth 16

/-- spec/40_control_flow.md R103 to R106: each skip adds 2 to `pc` exactly when its condition holds, and changes nothing
else. -/
def Obligations.SkipsOnCondition : Prop :=
  ∀ (s : State) (x y : Reg) (nn : Byte),
    exec (.skipEqImm x nn) s =
      .next { s with pc := if (s.reg x).toNat = nn.toNat then s.pc + 2 else s.pc } ∧
    exec (.skipNeImm x nn) s =
      .next { s with pc := if (s.reg x).toNat = nn.toNat then s.pc else s.pc + 2 } ∧
    exec (.skipEqReg x y) s =
      .next { s with pc := if (s.reg x).toNat = (s.reg y).toNat then s.pc + 2 else s.pc } ∧
    exec (.skipNeReg x y) s =
      .next { s with pc := if (s.reg x).toNat = (s.reg y).toNat then s.pc else s.pc + 2 }

/-! ## Register set and the ALU -/

/-- spec/41_register_alu.md R120, R121, R122: the sets and the flagless add write `Vx` and nothing else. -/
def Obligations.SetAndAddImmediate : Prop :=
  ∀ (s : State) (x y : Reg) (nn : Byte),
    (∃ v, exec (.setImm x nn) s = .next { s with v := v } ∧
      ∀ r : Reg, v[r.val] = if r = x then nn else s.reg r) ∧
    (∃ v, exec (.addImm x nn) s = .next { s with v := v } ∧
      ∀ r : Reg, v[r.val].toNat =
        if r = x then ((s.reg x).toNat + nn.toNat) % 256 else (s.reg r).toNat) ∧
    (∃ v, exec (.setReg x y) s = .next { s with v := v } ∧
      ∀ r : Reg, v[r.val] = if r = x then s.reg y else s.reg r)

/-- spec/41_register_alu.md R123, R124, R125: OR, AND and XOR, bit by bit; VF is not written as a flag. -/
def Obligations.LogicGroup : Prop :=
  ∀ (s : State) (x y : Reg),
    (∃ v, exec (.or x y) s = .next { s with v := v } ∧
      ∀ (r : Reg) (b : Nat), v[r.val].getLsbD b =
        if r = x then ((s.reg x).getLsbD b || (s.reg y).getLsbD b) else (s.reg r).getLsbD b) ∧
    (∃ v, exec (.and x y) s = .next { s with v := v } ∧
      ∀ (r : Reg) (b : Nat), v[r.val].getLsbD b =
        if r = x then ((s.reg x).getLsbD b && (s.reg y).getLsbD b) else (s.reg r).getLsbD b) ∧
    (∃ v, exec (.xor x y) s = .next { s with v := v } ∧
      ∀ (r : Reg) (b : Nat), v[r.val].getLsbD b =
        if r = x then ((s.reg x).getLsbD b ^^ (s.reg y).getLsbD b) else (s.reg r).getLsbD b)

/-- spec/41_register_alu.md R130: ADD; the carry is written last, so it is what VF holds when x is VF. -/
def Obligations.AddCarry : Prop :=
  ∀ (s : State) (x y : Reg),
    decodeWord (packXYN 0x8 x y 0x4) = .add x y ∧
    ∃ v, exec (.add x y) s = .next { s with v := v } ∧
      ∀ r : Reg, v[r.val].toNat =
        if r = 15 then (if (s.reg x).toNat + (s.reg y).toNat > 255 then 1 else 0)
        else if r = x then ((s.reg x).toNat + (s.reg y).toNat) % 256
        else (s.reg r).toNat

/-- spec/41_register_alu.md R131: SUBTRACT, with the strict comparison in VF. -/
def Obligations.SubtractBorrow : Prop :=
  ∀ (s : State) (x y : Reg),
    decodeWord (packXYN 0x8 x y 0x5) = .subtract x y ∧
    ∃ v, exec (.subtract x y) s = .next { s with v := v } ∧
      ∀ r : Reg, v[r.val].toNat =
        if r = 15 then (if (s.reg x).toNat > (s.reg y).toNat then 1 else 0)
        else if r = x then ((s.reg x).toNat + 256 - (s.reg y).toNat) % 256
        else (s.reg r).toNat

/-- spec/41_register_alu.md R133: ISUBTRACT, with the strict comparison in VF. -/
def Obligations.IsubtractBorrow : Prop :=
  ∀ (s : State) (x y : Reg),
    decodeWord (packXYN 0x8 x y 0x7) = .isubtract x y ∧
    ∃ v, exec (.isubtract x y) s = .next { s with v := v } ∧
      ∀ r : Reg, v[r.val].toNat =
        if r = 15 then (if (s.reg y).toNat > (s.reg x).toNat then 1 else 0)
        else if r = x then ((s.reg y).toNat + 256 - (s.reg x).toNat) % 256
        else (s.reg r).toNat

/-- spec/41_register_alu.md R132: RSHIFT halves `Vx`, VF is its old bit 0, and no other register is read or
written, whatever Y is. -/
def Obligations.RightShift : Prop :=
  ∀ (s : State) (x y : Reg),
    decodeWord (packXYN 0x8 x y 0x6) = .rshift x ∧
    ∃ v, exec (.rshift x) s = .next { s with v := v } ∧
      ∀ r : Reg, v[r.val].toNat =
        if r = 15 then (s.reg x).toNat % 2
        else if r = x then (s.reg x).toNat / 2
        else (s.reg r).toNat

/-- spec/41_register_alu.md R134: LSHIFT doubles `Vx` modulo 256, VF is its old bit 7, whatever Y is. -/
def Obligations.LeftShift : Prop :=
  ∀ (s : State) (x y : Reg),
    decodeWord (packXYN 0x8 x y 0xE) = .lshift x ∧
    ∃ v, exec (.lshift x) s = .next { s with v := v } ∧
      ∀ r : Reg, v[r.val].toNat =
        if r = 15 then (s.reg x).toNat / 128
        else if r = x then (s.reg x).toNat * 2 % 256
        else (s.reg r).toNat

/-- spec/41_register_alu.md R140, R141: RANDOM always completes with some byte masked by NN in `Vx`, and with exactly
the byte the host supplies where it supplies one; only the draws change beside. -/
def Obligations.RandomMasksDraw : Prop :=
  ∀ (s : State) (x : Reg) (nn : Byte),
    ∃ (v : Vector Byte 16) (d : Draws) (byte : Byte),
      exec (.random x nn) s = .next { s with v := v, draws := d } ∧
      (∀ (r : Reg) (b : Nat), v[r.val].getLsbD b =
        if r = x then (byte.getLsbD b && nn.getLsbD b) else (s.reg r).getLsbD b) ∧
      (∀ (r : Byte) (rest : List Byte), s.draws.randoms = r :: rest → byte = r ∧ d.randoms = rest)

/-! ## Index and memory -/

/-- spec/42_index_memory.md R150, R152: SET_INDEX and FONT write `I` and nothing else; FONT reads the low nibble. -/
def Obligations.IndexWrites : Prop :=
  ∀ (s : State) (x : Reg) (nnn : Addr12),
    (∃ p : Word, p.toNat = nnn.toNat ∧ exec (.setIndex nnn) s = .next { s with index := p }) ∧
    (∃ p : Word, p.toNat = (s.reg x).toNat % 16 * 5 + 0x050 ∧
      exec (.font x) s = .next { s with index := p })

/-- spec/42_index_memory.md R151: ADD_INDEX wraps at 12 bits and reports the overflow before masking in VF. -/
def Obligations.AddIndexOverflow : Prop :=
  ∀ (s : State) (x : Reg),
    decodeWord (packXNN 0xF x 0x1E) = .addIndex x ∧
    ∃ (v : Vector Byte 16) (p : Word),
      exec (.addIndex x) s = .next { s with v := v, index := p } ∧
      p.toNat = (s.index.toNat + (s.reg x).toNat) % 4096 ∧
      ∀ r : Reg, v[r.val].toNat =
        if r = 15 then (if s.index.toNat + (s.reg x).toNat > 0x0FFF then 1 else 0)
        else (s.reg r).toNat

/-- spec/42_index_memory.md R153: BINARY_CODED_DECIMAL stores the three digits at `I`, `I+1`, `I+2`; every other byte reads
as before, and nothing but memory changes. -/
def Obligations.BcdStoresDigits : Prop :=
  ∀ (s : State) (x : Reg), s.mem.wf → s.index.toNat + 2 < 4096 →
    ∃ m, exec (.binaryCodedDecimal x) s = .next { s with mem := m } ∧ m.wf ∧
      (memRead m s.index.toNat).toNat = (s.reg x).toNat / 100 ∧
      (memRead m (s.index.toNat + 1)).toNat = (s.reg x).toNat / 10 % 10 ∧
      (memRead m (s.index.toNat + 2)).toNat = (s.reg x).toNat % 10 ∧
      ∀ a, a < s.index.toNat ∨ s.index.toNat + 2 < a → memRead m a = memRead s.mem a

/-- spec/42_index_memory.md R154: STORE writes V0 to Vx at `I` and up; every other byte reads as before, and nothing
but memory changes, `I` included. -/
def Obligations.StoreWritesRegisters : Prop :=
  ∀ (s : State) (x : Reg), s.mem.wf → s.index.toNat + x.val < 4096 →
    ∃ m, exec (.store x) s = .next { s with mem := m } ∧ m.wf ∧
      (∀ r : Reg, r ≤ x → memRead m (s.index.toNat + r.val) = s.reg r) ∧
      ∀ a, a < s.index.toNat ∨ s.index.toNat + x.val < a → memRead m a = memRead s.mem a

/-- spec/42_index_memory.md R155: LOAD reads V0 to Vx from `I` and up; the other registers, and all else, stay. -/
def Obligations.LoadReadsRegisters : Prop :=
  ∀ (s : State) (x : Reg), s.index.toNat + x.val < 4096 →
    ∃ v, exec (.load x) s = .next { s with v := v } ∧
      ∀ r : Reg, v[r.val] = if r ≤ x then memRead s.mem (s.index.toNat + r.val) else s.reg r

/-- spec/42_index_memory.md R153, R154, R155, spec/20_memory.md R54, spec/60_exceptions.md R214: a transfer that would touch 0x1000 faults with
that address and changes nothing: no byte, no register. -/
def Obligations.TransferFaults : Prop :=
  ∀ (s : State) (x : Reg),
    (4096 ≤ s.index.toNat + 2 → exec (.binaryCodedDecimal x) s =
      .next { s with status := .faulted (.addressOutOfRange 0x1000), pc := s.pc - 2 }) ∧
    (4096 ≤ s.index.toNat + x.val →
      exec (.store x) s =
        .next { s with status := .faulted (.addressOutOfRange 0x1000), pc := s.pc - 2 } ∧
      exec (.load x) s =
        .next { s with status := .faulted (.addressOutOfRange 0x1000), pc := s.pc - 2 })

/-- spec/20_memory.md R62, spec/70_reset_and_hazards.md R261: a word STORE has written is what the very next fetch at its address
reads. -/
def Obligations.StoreThenFetch : Prop :=
  ∀ (s : State) (r q x : Reg), s.mem.wf → s.index.toNat + x.val < 4096 → q.val = r.val + 1 → q ≤ x →
    ∃ t w, exec (.store x) s = .next t ∧
      fetch { t with pc := s.index + BitVec.ofNat 16 r.val } = .ok w ∧
      w.toNat = 256 * (s.reg r).toNat + (s.reg q).toNat

/-! ## Display -/

/-- spec/43_display.md R172: CLEAR blanks every cell and emits `Cleared`; nothing else changes. -/
def Obligations.ClearBlanks : Prop :=
  ∀ s : State, ∃ fb, exec .clear s = .next { s with fb := fb, out := s.out ++ [.cleared] } ∧
    ∀ cx cy, cellAt fb cx cy = false

/-- spec/43_display.md R173: when the rows drawn lie in memory, DISPLAY toggles exactly the cells of the screen the
sprite covers, VF says whether one of them was set, and nothing else changes. -/
def Obligations.DisplayDraws : Prop :=
  ∀ (s : State) (x y : Reg) (n : Nibble),
    (min n.toNat (32 - (s.reg y).toNat % 32) = 0 ∨
      s.index.toNat + min n.toNat (32 - (s.reg y).toNat % 32) ≤ 4096) →
    ∃ v fb, exec (.display x y n) s = .next { s with v := v, fb := fb } ∧
      (∀ cx cy, cellAt fb cx cy = (cellAt s.fb cx cy ^^ spriteCovers s x y n cx cy)) ∧
      (∀ r : Reg, r ≠ 15 → v[r.val] = s.reg r) ∧
      ((∃ cx cy, spriteCovers s x y n cx cy = true ∧ cellAt s.fb cx cy = true) → v[15] = 1) ∧
      (¬ (∃ cx cy, spriteCovers s x y n cx cy = true ∧ cellAt s.fb cx cy = true) → v[15] = 0)

/-- spec/43_display.md R173, spec/60_exceptions.md R214: DISPLAY faults exactly when a row it would draw lies at 0x1000 or above,
and then changes nothing. -/
def Obligations.DisplayFaults : Prop :=
  ∀ (s : State) (x y : Reg) (n : Nibble),
    0 < min n.toNat (32 - (s.reg y).toNat % 32) →
    4096 < s.index.toNat + min n.toNat (32 - (s.reg y).toNat % 32) →
    exec (.display x y n) s =
      .next { s with status := .faulted (.addressOutOfRange 0x1000), pc := s.pc - 2 }

/-- spec/43_display.md R171, R173, R174: drawing the same sprite at the same place twice restores the framebuffer
exactly. The first VF is 1 exactly when a covered cell was set before; the second exactly when a covered
cell was off before, which the first draw set. (R174, a derived rule, says of the second VF "exactly when at
least one set sprite bit falls inside the screen"; by R171 and R173 that holds only where not every covered cell was
set before, as in the source's own property. Log entry 10.) -/
def Obligations.DrawTwiceRestores : Prop :=
  ∀ (s t t' u : State) (x y : Reg) (n : Nibble),
    exec (.display x y n) s = .next t → t.status = s.status → s.status = .running →
    t'.reg x = s.reg x → t'.reg y = s.reg y → t'.index = s.index → t'.mem = s.mem → t'.fb = t.fb →
    exec (.display x y n) t' = .next u →
    u.fb = s.fb ∧
    (t.reg 15 = 1 ↔ ∃ cx cy, spriteCovers s x y n cx cy = true ∧ cellAt s.fb cx cy = true) ∧
    (u.reg 15 = 1 ↔ ∃ cx cy, spriteCovers s x y n cx cy = true ∧ cellAt s.fb cx cy = false)

/-! ## Keypad and timers -/

/-- spec/44_keypad_timers.md R191, R192: the key skips compare all 8 bits of `Vx` with the latched key; no key is no match.
Stated for the latches the hardware holds (spec/10_state.md R30). -/
def Obligations.KeySkips : Prop :=
  ∀ (s : State) (x : Reg),
    (∀ k : Key, s.pressed = true → s.key = some k →
      exec (.skipIfKey x) s =
        .next { s with pc := if (s.reg x).toNat = k.val then s.pc + 2 else s.pc } ∧
      exec (.skipIfNotKey x) s =
        .next { s with pc := if (s.reg x).toNat = k.val then s.pc else s.pc + 2 }) ∧
    (s.pressed = false →
      exec (.skipIfKey x) s = .next s ∧
      exec (.skipIfNotKey x) s = .next { s with pc := s.pc + 2 })

/-- spec/44_keypad_timers.md R193, spec/30_encoding.md R77: GET_KEY takes the latched key into `Vx`, the latch kept; with no key
pressed it retries: `pc` is its own address again and nothing else changes. -/
def Obligations.GetKeyTakesOrRetries : Prop :=
  ∀ (s : State) (x : Reg),
    (∀ k : Key, s.pressed = true → s.key = some k →
      ∃ v, exec (.getKey x) s = .next { s with v := v } ∧
        ∀ r : Reg, v[r.val].toNat = if r = x then k.val else (s.reg r).toNat) ∧
    (s.pressed = false → exec (.getKey x) s = .next { s with pc := s.pc - 2 })

/-- spec/44_keypad_timers.md R194: READ_DELAY_TIMER copies `DT` into `Vx`. -/
def Obligations.ReadDelay : Prop :=
  ∀ (s : State) (x : Reg),
    decodeWord (packXNN 0xF x 0x07) = .readDelayTimer x ∧
    ∃ v, exec (.readDelayTimer x) s = .next { s with v := v } ∧
      ∀ r : Reg, v[r.val] = if r = x then s.dt else s.reg r

/-- spec/44_keypad_timers.md R195, R196, spec/60_exceptions.md R241: the timer sets load `Vx` and put the shared reference at the clock
reading they take, which is the host's where it supplies one not below the last. -/
def Obligations.TimerSets : Prop :=
  ∀ (s : State) (x : Reg),
    ∃ (now : Time) (d : Draws), s.clock ≤ now ∧
      (∀ r rest, s.draws.readings = r :: rest → s.clock ≤ r → now = r ∧ d.readings = rest) ∧
      exec (.setDelayTimer x) s =
        .next { s with dt := s.reg x, tRef := now, clock := now, draws := d } ∧
      exec (.setBeapTimer x) s =
        .next { s with st := s.reg x, tRef := now, clock := now, draws := d }

/-- spec/60_exceptions.md R211: UNKNOWN is a no-op but for its report, which names its address and its word. R211
and decision D29 let no claim depend on the report's presence, so this one does not. -/
def Obligations.UnknownReports : Prop :=
  ∀ (s : State) (w : Word),
    ∃ more, exec (.unknown w) s = .next { s with out := s.out ++ more } ∧
      (more = [.diagnostic (s.pc - 2) w] ∨ more = [])

/-! ## Rules of the whole machine -/

/-- spec/70_reset_and_hazards.md R253, spec/10_state.md R23, R24, R25, R30, R36: every step keeps the invariants. -/
def Obligations.StepKeepsInvariant : Prop :=
  ∀ s s' : State, s.Inv → step s = .next s' → s'.Inv

/-- spec/60_exceptions.md R214: an instruction that faults changes nothing but `status`, and `pc` is its address; this
holds for every instruction. -/
def Obligations.FaultsArePrecise : Prop :=
  ∀ (i : Instr) (s t : State) (r : FaultReason), s.status = .running →
    exec i s = .next t → t.status = .faulted r →
    t = { s with status := .faulted r, pc := s.pc - 2 }

/-- spec/60_exceptions.md R240: every step that runs takes one event list: the next one State lists, which is then used
up, or a free one where it lists none (log entry 1). -/
def Obligations.StepUsesOneEventList : Prop :=
  ∀ s s' : State, step s = .next s' →
    s'.draws.events = s.draws.events.tail ∧
    ∀ es rest, s.draws.events = es :: rest → s.nextEvents = es ∧ s'.draws.events = rest

/-- spec/60_exceptions.md R213, spec/42_index_memory.md R153, R154, R155, spec/43_display.md R173: only CALL overflows the stack, and only the four instructions that reach memory go out
of range, with address 0x1000; every instruction answers a next state, running or faulted. That address is the
lowest out of range because `I` is at most 0xFFF in every reachable state (spec/10_state.md R24); in a state with `I`
above, which no run reaches, it is the model's choice (log entry 8). -/
def Obligations.WhoMayFault : Prop :=
  ∀ (i : Instr) (s : State), s.status = .running → ∃ t, exec i s = .next t ∧
    (t.status = .running ∨
     (t.status = .faulted .stackOverflow ∧ ∃ nnn, i = .call nnn) ∨
     (t.status = .faulted (.addressOutOfRange 0x1000) ∧
       ((∃ x y n, i = .display x y n) ∨ (∃ x, i = .binaryCodedDecimal x) ∨
        (∃ x, i = .store x) ∨ ∃ x, i = .load x)))

/-- spec/10_state.md R22, R37, spec/70_reset_and_hazards.md R264: a step changes a general register only where the instruction it
executes names it as a destination, or it is VF and the instruction writes a flag. -/
def Obligations.RegisterWriters : Prop :=
  ∀ (s s' : State) (r : Reg), step s = .next s' → s'.reg r ≠ s.reg r →
    ∃ w, fetch s = .ok w ∧
      (writesDest (decodeWord w) r = true ∨ (r = 15 ∧ writesFlag (decodeWord w) = true))

/-- spec/10_state.md R24, R36: a step changes `I` only by SET_INDEX, ADD_INDEX or FONT. -/
def Obligations.IndexWriters : Prop :=
  ∀ s s' : State, step s = .next s' → s'.index ≠ s.index →
    ∃ w, fetch s = .ok w ∧
      ((∃ nnn, decodeWord w = .setIndex nnn) ∨ (∃ x, decodeWord w = .addIndex x) ∨
        ∃ x, decodeWord w = .font x)

/-- spec/10_state.md R25: a step changes the stack only by a CALL, which adds one entry, or a RETURN, which drops
the newest. -/
def Obligations.StackWriters : Prop :=
  ∀ s s' : State, step s = .next s' → s'.stack ≠ s.stack →
    ∃ w, fetch s = .ok w ∧
      (((∃ nnn, decodeWord w = .call nnn) ∧ s'.stack = s.stack ++ [s.pc + 2]) ∨
       (decodeWord w = .ret ∧ s'.stack = s.stack.dropLast))

/-- spec/20_memory.md R51, R54, R61: a step changes the byte at an address only by a BINARY_CODED_DECIMAL or a STORE
that writes there; the input, timer, sound and debounce phases write no memory. -/
def Obligations.MemoryWriters : Prop :=
  ∀ (s s' : State) (a : Nat), s.mem.wf → step s = .next s' → memRead s'.mem a ≠ memRead s.mem a →
    ∃ w, fetch s = .ok w ∧
      s.index.toNat ≤ a ∧ a < s.index.toNat + bytesWritten (decodeWord w)

/-- spec/43_display.md R170: a step changes the framebuffer only by CLEAR or DISPLAY. -/
def Obligations.FramebufferWriters : Prop :=
  ∀ s s' : State, step s = .next s' → s'.fb ≠ s.fb →
    ∃ w, fetch s = .ok w ∧ (decodeWord w = .clear ∨ ∃ x y n, decodeWord w = .display x y n)

/-- spec/10_state.md R30, spec/44_keypad_timers.md R190: no instruction writes the key latch or its reference. -/
def Obligations.LatchIsReadOnly : Prop :=
  ∀ (i : Instr) (s t : State), exec i s = .next t →
    t.key = s.key ∧ t.pressed = s.pressed ∧ t.keyRef = s.keyRef

/-- spec/10_state.md R34, spec/60_exceptions.md R246: the output trace is only appended to, by at most one event of the
instruction and one `PlaySound`. -/
def Obligations.TraceIsAppended : Prop :=
  ∀ s s' : State, step s = .next s' →
    ∃ more : List OutEvent, s'.out = s.out ++ more ∧ more.length ≤ 2

/-- spec/60_exceptions.md R241: clock readings never run backwards, through every read point of a step. -/
def Obligations.ClockNeverRunsBack : Prop :=
  ∀ s s' : State, step s = .next s' → s.clock ≤ s'.clock

/-- spec/60_exceptions.md R233, spec/10_state.md R26, R27, spec/70_reset_and_hazards.md R263: a step whose instruction sets no timer moves the two timers
and their reference together, by one tick or not at all, and by a tick only when the clock has passed the
next reference; no timer wraps. -/
def Obligations.TimersMoveByTicks : Prop :=
  ∀ s s' : State, step s = .next s' →
    (∀ w, fetch s = .ok w → setsTimer (decodeWord w) = false) →
    (s'.tRef = s.tRef ∧ s'.dt = s.dt ∧ s'.st = s.st) ∨
    (s'.tRef = s.tRef + 1 / 60 ∧ s'.tRef ≤ s'.clock ∧
      s'.dt.toNat = s.dt.toNat - 1 ∧ s'.st.toNat = s.st.toNat - 1)

/-- spec/60_exceptions.md R236: over any run that sets no timer, `DT` and `ST` lose one for each tick of the shared
reference; so neither reaches 0 before the clock has passed its value in ticks. -/
def Obligations.TimersNeverEarly : Prop :=
  ∀ s t : State, UnsetRun s t →
    (∃ n : Nat, t.tRef = s.tRef + n * (1 / 60 : Rat) ∧ (0 < n → t.tRef ≤ t.clock) ∧
      t.dt.toNat = s.dt.toNat - n ∧ t.st.toNat = s.st.toNat - n) ∧
    (0 < s.dt.toNat → t.dt.toNat = 0 → s.tRef + s.dt.toNat * (1 / 60 : Rat) ≤ t.clock) ∧
    (0 < s.st.toNat → t.st.toNat = 0 → s.tRef + s.st.toNat * (1 / 60 : Rat) ≤ t.clock)
end

