-- ==== Sys2Proof/Laws/Decode.lean ====
section
/-!
SUPPORT. The fields of packed words, and the two bytes of a word.
-/
namespace Sys2Proof

/-- A field is the digits of the word's number at its place (R72). -/
theorem extract_toNat (w : Word) (lo n : Nat) :
    (w.extractLsb' lo n).toNat = w.toNat / 2 ^ lo % 2 ^ n := by
  rw [BitVec.extractLsb'_toNat, Nat.shiftRight_eq_div_pow]

theorem xField_val (w : Word) : (xField w).val = w.toNat / 2 ^ 8 % 2 ^ 4 := extract_toNat w 8 4

theorem yField_val (w : Word) : (yField w).val = w.toNat / 2 ^ 4 % 2 ^ 4 := extract_toNat w 4 4

@[simp] theorem opField_packNNN (op : Nibble) (nnn : Addr12) :
    opField (packNNN op nnn) = op := by
  have := op.isLt
  have := nnn.isLt
  apply BitVec.eq_of_toNat_eq
  rw [opField, extract_toNat, packNNN, BitVec.toNat_ofNat]
  omega

@[simp] theorem nnnField_packNNN (op : Nibble) (nnn : Addr12) :
    nnnField (packNNN op nnn) = nnn := by
  have := op.isLt
  have := nnn.isLt
  apply BitVec.eq_of_toNat_eq
  rw [nnnField, extract_toNat, packNNN, BitVec.toNat_ofNat]
  omega

@[simp] theorem opField_packXNN (op : Nibble) (x : Reg) (nn : Byte) :
    opField (packXNN op x nn) = op := by
  have := op.isLt
  have := x.isLt
  have := nn.isLt
  apply BitVec.eq_of_toNat_eq
  rw [opField, extract_toNat, packXNN, BitVec.toNat_ofNat]
  omega

@[simp] theorem xField_packXNN (op : Nibble) (x : Reg) (nn : Byte) :
    xField (packXNN op x nn) = x := by
  have := op.isLt
  have := x.isLt
  have := nn.isLt
  apply Fin.ext
  rw [xField_val, packXNN, BitVec.toNat_ofNat]
  omega

@[simp] theorem nnField_packXNN (op : Nibble) (x : Reg) (nn : Byte) :
    nnField (packXNN op x nn) = nn := by
  have := op.isLt
  have := x.isLt
  have := nn.isLt
  apply BitVec.eq_of_toNat_eq
  rw [nnField, extract_toNat, packXNN, BitVec.toNat_ofNat]
  omega

@[simp] theorem opField_packXYN (op : Nibble) (x y : Reg) (n : Nibble) :
    opField (packXYN op x y n) = op := by
  have := op.isLt
  have := x.isLt
  have := y.isLt
  have := n.isLt
  apply BitVec.eq_of_toNat_eq
  rw [opField, extract_toNat, packXYN, BitVec.toNat_ofNat]
  omega

@[simp] theorem xField_packXYN (op : Nibble) (x y : Reg) (n : Nibble) :
    xField (packXYN op x y n) = x := by
  have := op.isLt
  have := x.isLt
  have := y.isLt
  have := n.isLt
  apply Fin.ext
  rw [xField_val, packXYN, BitVec.toNat_ofNat]
  omega

@[simp] theorem yField_packXYN (op : Nibble) (x y : Reg) (n : Nibble) :
    yField (packXYN op x y n) = y := by
  have := op.isLt
  have := x.isLt
  have := y.isLt
  have := n.isLt
  apply Fin.ext
  rw [yField_val, packXYN, BitVec.toNat_ofNat]
  omega

@[simp] theorem nField_packXYN (op : Nibble) (x y : Reg) (n : Nibble) :
    nField (packXYN op x y n) = n := by
  have := op.isLt
  have := x.isLt
  have := y.isLt
  have := n.isLt
  apply BitVec.eq_of_toNat_eq
  rw [nField, extract_toNat, packXYN, BitVec.toNat_ofNat]
  omega

/-! The bytes of a word (R55). -/

@[simp] theorem wordOfBytes_bytes (w : Word) :
    wordOfBytes (w.extractLsb' 8 8) (w.extractLsb' 0 8) = w := by
  have := w.isLt
  apply BitVec.eq_of_toNat_eq
  rw [wordOfBytes, extract_toNat, extract_toNat, BitVec.toNat_ofNat]
  omega

theorem wordOfBytes_toNat (b1 b2 : Byte) :
    (wordOfBytes b1 b2).toNat = b1.toNat * 0x100 + b2.toNat := by
  have := b1.isLt
  have := b2.isLt
  rw [wordOfBytes, BitVec.toNat_ofNat]
  omega

/-! The masks of the opcode map (R81) read the fields. -/

theorem mask_iff {w m p : Word} (hp : p &&& m = p) :
    w &&& m = p ↔ ∀ i < 16, m.getLsbD i = true → w.getLsbD i = p.getLsbD i := by
  constructor
  · rintro rfl i _ hm
    simp [BitVec.getLsbD_and, hm]
  · intro h
    rw [← hp]
    apply BitVec.eq_of_getLsbD_eq
    intro i hi
    rw [BitVec.getLsbD_and, BitVec.getLsbD_and]
    cases hm : m.getLsbD i
    · simp
    · rw [h i hi hm]

/-- Two words agree in a field when their bits at its place do. -/
theorem field_eq_iff (w p : Word) (lo n : Nat) :
    w.extractLsb' lo n = p.extractLsb' lo n ↔ ∀ i < n, w.getLsbD (lo + i) = p.getLsbD (lo + i) := by
  constructor
  · intro h i hi
    have := congrArg (BitVec.getLsbD · i) h
    simpa [BitVec.getLsbD_extractLsb', hi] using this
  · intro h
    apply BitVec.eq_of_getLsbD_eq
    intro i hi
    simp [hi, h i hi]

/-- Mask 0xF000 reads the family. -/
theorem mask_family (w p : Word) (hp : p &&& 0xF000 = p) :
    w &&& 0xF000 = p ↔ opField w = opField p := by
  rw [mask_iff hp, opField, opField, field_eq_iff]
  constructor
  · intro h i hi
    exact h (12 + i) (by omega) (by interval_cases i <;> decide)
  · intro h i hi hm
    by_cases hlo : 12 ≤ i
    · have := h (i - 12) (by omega)
      rwa [Nat.add_sub_cancel' hlo] at this
    · interval_cases i <;> exact absurd hm (by decide)

/-- Mask 0xF0FF reads the family and the low byte. -/
theorem mask_low_byte (w p : Word) (hp : p &&& 0xF0FF = p) :
    w &&& 0xF0FF = p ↔ opField w = opField p ∧ nnField w = nnField p := by
  rw [mask_iff hp, opField, opField, field_eq_iff, nnField, nnField, field_eq_iff]
  constructor
  · intro h
    exact ⟨fun i hi => h (12 + i) (by omega) (by interval_cases i <;> decide),
      fun i hi => h (0 + i) (by omega) (by interval_cases i <;> decide)⟩
  · rintro ⟨h, g⟩ i hi hm
    by_cases hlo : 12 ≤ i
    · have := h (i - 12) (by omega)
      rwa [Nat.add_sub_cancel' hlo] at this
    · by_cases hl : i < 8
      · have := g i hl
        rwa [Nat.zero_add] at this
      · interval_cases i <;> exact absurd hm (by decide)

/-- Mask 0xF00F reads the family and the low nibble. -/
theorem mask_low_nibble (w p : Word) (hp : p &&& 0xF00F = p) :
    w &&& 0xF00F = p ↔ opField w = opField p ∧ nField w = nField p := by
  rw [mask_iff hp, opField, opField, field_eq_iff, nField, nField, field_eq_iff]
  constructor
  · intro h
    exact ⟨fun i hi => h (12 + i) (by omega) (by interval_cases i <;> decide),
      fun i hi => h (0 + i) (by omega) (by interval_cases i <;> decide)⟩
  · rintro ⟨h, g⟩ i hi hm
    by_cases hlo : 12 ≤ i
    · have := h (i - 12) (by omega)
      rwa [Nat.add_sub_cancel' hlo] at this
    · by_cases hl : i < 4
      · have := g i hl
        rwa [Nat.zero_add] at this
      · interval_cases i <;> exact absurd hm (by decide)

/-- Every row's mask is one of three, and its match lies under it (R81). -/
theorem opcodeMap_masks : ∀ r ∈ opcodeMap,
    (r.mask = 0xF000 ∨ r.mask = 0xF0FF ∨ r.mask = 0xF00F) ∧ r.pattern &&& r.mask = r.pattern := by
  decide

/-- What a row asks of a word's fields (R79, R81). -/
theorem rowCovers_fields {r : OpcodeRow} (hr : r ∈ opcodeMap) (w : Word) :
    rowCovers r w = true ↔
      opField w = opField r.pattern ∧ (r.mask = 0xF0FF → nnField w = nnField r.pattern) ∧
        (r.mask = 0xF00F → nField w = nField r.pattern) := by
  obtain ⟨hm, hp⟩ := opcodeMap_masks r hr
  rw [rowCovers, beq_iff_eq]
  rcases hm with hm | hm | hm <;> rw [hm] at hp ⊢
  · rw [mask_family w _ hp]
    simp
  · rw [mask_low_byte w _ hp]
    simp
  · rw [mask_low_nibble w _ hp]
    simp

/-- In a family with one category the family alone decides (R79). -/
theorem rowCovers_single {w : Word} {op : Nibble} (hw : opField w = op)
    (hop : ∀ r ∈ opcodeMap, op = opField r.pattern → r.mask = 0xF000)
    {r : OpcodeRow} (hr : r ∈ opcodeMap) :
    rowCovers r w = true ↔ op = opField r.pattern := by
  rw [rowCovers_fields hr, hw]
  constructor
  · exact fun h => h.1
  · intro h
    have hm := hop r hr h
    simp [h, hm]

end Sys2Proof
end

