-- ==== Sys2Proof/Laws/Framebuffer.lean ====
section
/-!
SUPPORT. The framebuffer: one lemma for each operation, through the read of one cell.
-/
namespace Sys2Proof.Machine

@[simp] theorem cellAt_blank (cx cy : Nat) : cellAt blankFramebuffer cx cy = false := by
  unfold cellAt blankFramebuffer
  split
  · simp
  · rfl

theorem cellAt_out_of_bounds (fb : Framebuffer) {cx cy : Nat}
    (h : ¬ (cx < Config.screenW ∧ cy < Config.screenH)) : cellAt fb cx cy = false := by
  rw [cellAt, dif_neg h]

/-- Two framebuffers with the same cells are equal. -/
theorem framebuffer_ext {f g : Framebuffer} (h : ∀ cx cy, cellAt f cx cy = cellAt g cx cy) : f = g := by
  apply Vector.ext
  intro cx hx
  apply Vector.ext
  intro cy hy
  have := h cx cy
  simpa [cellAt, hx, hy] using this

/-- Out of bounds, a flip does nothing and answers false (R171). -/
theorem flip_out_of_bounds (fb : Framebuffer) {cx cy : Nat}
    (h : ¬ (cx < Config.screenW ∧ cy < Config.screenH)) : flip fb cx cy = (fb, false) := by
  rw [flip, dif_neg h]

/-- A flip answers whether the cell was set (R171). -/
theorem flip_answer (fb : Framebuffer) (cx cy : Nat) : (flip fb cx cy).2 = cellAt fb cx cy := by
  unfold flip cellAt
  split <;> rfl

/-- A flip toggles its cell and no other (R171). -/
theorem cellAt_flip (fb : Framebuffer) {cx cy : Nat}
    (h : cx < Config.screenW ∧ cy < Config.screenH) (qx qy : Nat) :
    cellAt (flip fb cx cy).1 qx qy =
      if qx = cx ∧ qy = cy then !cellAt fb cx cy else cellAt fb qx qy := by
  unfold flip
  rw [dif_pos h]
  unfold cellAt
  by_cases hq : qx < Config.screenW ∧ qy < Config.screenH
  · rw [dif_pos hq, dif_pos h, dif_pos hq]
    by_cases hx : qx = cx
    · subst hx
      by_cases hy : qy = cy
      · subst hy; simp
      · have : cy ≠ qy := fun e => hy e.symm
        simp [hy, this]
    · have : cx ≠ qx := fun e => hx e.symm
      simp [hx, this]
  · rw [dif_neg hq, if_neg (by rintro ⟨rfl, rfl⟩; exact hq h), dif_neg hq]

end Sys2Proof.Machine
end

