-- ==== Sys2Proof/Laws/Memory.lean ====
section
/-!
SUPPORT. Memory: read after write, the canonical form is kept by every operation, and one lemma for each
block transfer.
-/
namespace Sys2Proof.Machine

/-- Every listed address is above `a`. -/
abbrev Memory.above (a : Nat) (m : Memory) : Prop := ∀ c ∈ m, a < c.1

theorem wf_nil : Memory.wf [] := ⟨List.Pairwise.nil, fun _ h => nomatch h⟩

theorem wf_cons {c : Host.Cell} {m : Memory} :
    Memory.wf (c :: m) ↔
      Memory.above c.1 m ∧ (c.1 < Config.memSize ∧ c.2 ≠ resetByte c.1) ∧ Memory.wf m := by
  simp only [Memory.wf, Memory.above, List.pairwise_cons, List.mem_cons, forall_eq_or_imp]
  tauto

theorem memRead_of_above {m : Memory} {a : Nat} (h : Memory.above a m) : memRead m a = resetByte a := by
  induction m with
  | nil => rfl
  | cons c m ih =>
    have hc : a < c.1 := h c (by simp)
    rw [memRead, if_neg (by omega), ih fun d hd => h d (by simp [hd])]

theorem above_trans {m : Memory} {a b : Nat} (hab : a < b) (h : Memory.above b m) : Memory.above a m :=
  fun c hc => hab.trans (h c hc)

/-- Read after write (spec/20_memory.md R52, R53, R61). -/
theorem memRead_memWrite {m : Memory} (h : m.wf) (a : Nat) (b : Byte) (q : Nat) :
    memRead (memWrite m a b) q = if q = a then b else memRead m q := by
  induction m with
  | nil =>
    unfold memWrite
    by_cases hq : q = a
    · subst hq; split <;> simp_all [memRead]
    · rw [if_neg hq]; split
      · rfl
      · simp only [memRead]; rw [if_neg fun e : a = q => hq e.symm]
  | cons c m ih =>
    obtain ⟨hc, -, hm⟩ := wf_cons.mp h
    unfold memWrite
    split
    · rw [memRead, ih hm, memRead]
      by_cases hq : q = a
      · subst hq; rw [if_neg (by omega), if_pos rfl, if_pos rfl]
      · rw [if_neg hq, if_neg hq]
    · split
      · rename_i _ e
        split
        · rename_i hb
          by_cases hq : q = a
          · subst hq
            rw [if_pos rfl, memRead_of_above (e ▸ hc), hb]
          · rw [if_neg hq, memRead, if_neg (by omega)]
        · by_cases hq : q = a
          · subst hq; simp [memRead]
          · rw [if_neg hq, memRead, memRead, if_neg (by simp; omega), if_neg (by omega)]
      · have hlt : a < c.1 := by omega
        split
        · rename_i hb
          by_cases hq : q = a
          · subst hq
            rw [if_pos rfl, memRead, if_neg (by omega), memRead_of_above (above_trans hlt hc), hb]
          · rw [if_neg hq]
        · by_cases hq : q = a
          · subst hq; simp [memRead]
          · rw [if_neg hq, memRead, if_neg (by simp; omega)]

theorem above_memWrite {m : Memory} {k a : Nat} {b : Byte} (h : Memory.above k m) (ha : k < a) :
    Memory.above k (memWrite m a b) := by
  induction m with
  | nil =>
    unfold memWrite
    intro d hd
    split at hd
    · exact nomatch hd
    · rw [List.mem_singleton.mp hd]; exact ha
  | cons c m ih =>
    have hc : k < c.1 := h c (by simp)
    have hm : Memory.above k m := fun d hd => h d (by simp [hd])
    unfold memWrite
    intro d hd
    split_ifs at hd
    · rcases List.mem_cons.mp hd with rfl | hd
      · exact hc
      · exact ih hm d hd
    · exact hm d hd
    · rcases List.mem_cons.mp hd with rfl | hd
      · exact ha
      · exact hm d hd
    · exact h d hd
    · rcases List.mem_cons.mp hd with rfl | hd
      · exact ha
      · exact h d hd

/-- A write keeps the canonical form. -/
theorem wf_memWrite {m : Memory} (h : m.wf) {a : Nat} (ha : a < Config.memSize) (b : Byte) :
    (memWrite m a b).wf := by
  induction m with
  | nil =>
    unfold memWrite
    split
    · exact wf_nil
    · exact wf_cons.mpr ⟨(fun _ h => nomatch h), ⟨ha, by assumption⟩, wf_nil⟩
  | cons c m ih =>
    obtain ⟨hc, hcb, hm⟩ := wf_cons.mp h
    unfold memWrite
    split
    · exact wf_cons.mpr ⟨above_memWrite hc (by assumption), hcb, ih hm⟩
    · split
      · rename_i _ e
        split
        · exact hm
        · exact wf_cons.mpr ⟨e ▸ hc, ⟨ha, by assumption⟩, hm⟩
      · have hlt : a < c.1 := by omega
        split
        · exact h
        · refine wf_cons.mpr ⟨fun d hd => ?_, ⟨ha, by assumption⟩, h⟩
          rcases List.mem_cons.mp hd with rfl | hd
          · exact hlt
          · exact hlt.trans (hc d hd)

/-- A block write keeps the canonical form. -/
theorem wf_memWriteAll (bs : List Byte) :
    ∀ {m : Memory} (_ : m.wf) {base : Nat} (_ : base + bs.length ≤ Config.memSize),
      (memWriteAll m base bs).wf := by
  induction bs with
  | nil => intro m h base _; exact h
  | cons b bs ih =>
    intro m h base hb
    rw [List.length_cons] at hb
    exact ih (wf_memWrite h (by omega) b) (by omega)

/-- Reading after a block write: the block's byte inside it, the old byte outside. -/
theorem memRead_memWriteAll (bs : List Byte) :
    ∀ {m : Memory} (_ : m.wf) {base : Nat} (_ : base + bs.length ≤ Config.memSize) (q : Nat),
      memRead (memWriteAll m base bs) q =
        if base ≤ q then (bs[q - base]?).getD (memRead m q) else memRead m q := by
  induction bs with
  | nil => intro m _ base _ q; simp [memWriteAll]
  | cons b bs ih =>
    intro m h base hb q
    rw [List.length_cons] at hb
    rw [memWriteAll, ih (wf_memWrite h (by omega) b) (by omega), memRead_memWrite h]
    rcases Nat.lt_trichotomy base q with hq | hq | hq
    · have e : q - base = q - (base + 1) + 1 := by omega
      rw [if_pos (by omega : base + 1 ≤ q), if_pos hq.le, if_neg (by omega : ¬ q = base), e,
        List.getElem?_cons_succ]
    · subst hq; simp
    · rw [if_neg (by omega), if_neg (by omega), if_neg (by omega)]

theorem memReadAll_length (m : Memory) (base n : Nat) : (memReadAll m base n).length = n := by
  simp [memReadAll]

theorem memReadAll_get (m : Memory) (base n k : Nat) (h : k < n) :
    (memReadAll m base n)[k]? = some (memRead m (base + k)) := by
  simp [memReadAll, h]

theorem blockInRange_iff (base n : Nat) :
    blockInRange base n = true ↔ n = 0 ∨ base + n ≤ Config.memSize := by
  simp [blockInRange]

/-- What reading a block answers (spec/20_memory.md R52, R54). -/
theorem readBlock_cases (m : Memory) (base n : Nat) :
    ((n = 0 ∨ base + n ≤ Config.memSize) ∧ readBlock m base n = .ok (memReadAll m base n)) ∨
    (¬ (n = 0 ∨ base + n ≤ Config.memSize) ∧
      readBlock m base n = .error (.addressOutOfRange Config.memSize)) := by
  by_cases h : blockInRange base n = true
  · exact .inl ⟨(blockInRange_iff base n).mp h, by simp [readBlock, h]⟩
  · exact .inr ⟨fun h' => h ((blockInRange_iff base n).mpr h'), by simp [readBlock, h]⟩

/-- What writing a block answers (spec/20_memory.md R53, R54). -/
theorem writeBlock_cases (m : Memory) (base : Nat) (bs : List Byte) :
    ((bs.length = 0 ∨ base + bs.length ≤ Config.memSize) ∧
      writeBlock m base bs = .ok (memWriteAll m base bs)) ∨
    (¬ (bs.length = 0 ∨ base + bs.length ≤ Config.memSize) ∧
      writeBlock m base bs = .error (.addressOutOfRange Config.memSize)) := by
  by_cases h : blockInRange base bs.length = true
  · exact .inl ⟨(blockInRange_iff _ _).mp h, by simp [writeBlock, h]⟩
  · exact .inr ⟨fun h' => h ((blockInRange_iff _ _).mpr h'), by simp [writeBlock, h]⟩

end Sys2Proof.Machine
end

