-- ==== Sys2Proof/Laws/State.lean ====
section
/-!
SUPPORT. One lemma for each field under each update of State, so that no later proof unfolds an update.
-/
namespace Sys2Proof.Machine

variable (s : State)

/-! `setReg` -/

@[simp] theorem setReg_index (r : Reg) (b : Byte) : (s.setReg r b).index = s.index := rfl
@[simp] theorem setReg_pc (r : Reg) (b : Byte) : (s.setReg r b).pc = s.pc := rfl
@[simp] theorem setReg_stack (r : Reg) (b : Byte) : (s.setReg r b).stack = s.stack := rfl
@[simp] theorem setReg_dt (r : Reg) (b : Byte) : (s.setReg r b).dt = s.dt := rfl
@[simp] theorem setReg_st (r : Reg) (b : Byte) : (s.setReg r b).st = s.st := rfl
@[simp] theorem setReg_tRef (r : Reg) (b : Byte) : (s.setReg r b).tRef = s.tRef := rfl
@[simp] theorem setReg_key (r : Reg) (b : Byte) : (s.setReg r b).key = s.key := rfl
@[simp] theorem setReg_pressed (r : Reg) (b : Byte) : (s.setReg r b).pressed = s.pressed := rfl
@[simp] theorem setReg_keyRef (r : Reg) (b : Byte) : (s.setReg r b).keyRef = s.keyRef := rfl
@[simp] theorem setReg_mem (r : Reg) (b : Byte) : (s.setReg r b).mem = s.mem := rfl
@[simp] theorem setReg_fb (r : Reg) (b : Byte) : (s.setReg r b).fb = s.fb := rfl
@[simp] theorem setReg_out (r : Reg) (b : Byte) : (s.setReg r b).out = s.out := rfl
@[simp] theorem setReg_status (r : Reg) (b : Byte) : (s.setReg r b).status = s.status := rfl
@[simp] theorem setReg_clock (r : Reg) (b : Byte) : (s.setReg r b).clock = s.clock := rfl
@[simp] theorem setReg_draws (r : Reg) (b : Byte) : (s.setReg r b).draws = s.draws := rfl

/-! `setFlag` -/

@[simp] theorem setFlag_index (f : Bool) : (s.setFlag f).index = s.index := rfl
@[simp] theorem setFlag_pc (f : Bool) : (s.setFlag f).pc = s.pc := rfl
@[simp] theorem setFlag_stack (f : Bool) : (s.setFlag f).stack = s.stack := rfl
@[simp] theorem setFlag_dt (f : Bool) : (s.setFlag f).dt = s.dt := rfl
@[simp] theorem setFlag_st (f : Bool) : (s.setFlag f).st = s.st := rfl
@[simp] theorem setFlag_tRef (f : Bool) : (s.setFlag f).tRef = s.tRef := rfl
@[simp] theorem setFlag_key (f : Bool) : (s.setFlag f).key = s.key := rfl
@[simp] theorem setFlag_pressed (f : Bool) : (s.setFlag f).pressed = s.pressed := rfl
@[simp] theorem setFlag_keyRef (f : Bool) : (s.setFlag f).keyRef = s.keyRef := rfl
@[simp] theorem setFlag_mem (f : Bool) : (s.setFlag f).mem = s.mem := rfl
@[simp] theorem setFlag_fb (f : Bool) : (s.setFlag f).fb = s.fb := rfl
@[simp] theorem setFlag_out (f : Bool) : (s.setFlag f).out = s.out := rfl
@[simp] theorem setFlag_status (f : Bool) : (s.setFlag f).status = s.status := rfl
@[simp] theorem setFlag_clock (f : Bool) : (s.setFlag f).clock = s.clock := rfl
@[simp] theorem setFlag_draws (f : Bool) : (s.setFlag f).draws = s.draws := rfl

/-! `setRegFlag` -/

@[simp] theorem setRegFlag_index (r : Reg) (b : Byte) (f : Bool) : (s.setRegFlag r b f).index = s.index := rfl
@[simp] theorem setRegFlag_pc (r : Reg) (b : Byte) (f : Bool) : (s.setRegFlag r b f).pc = s.pc := rfl
@[simp] theorem setRegFlag_stack (r : Reg) (b : Byte) (f : Bool) : (s.setRegFlag r b f).stack = s.stack := rfl
@[simp] theorem setRegFlag_dt (r : Reg) (b : Byte) (f : Bool) : (s.setRegFlag r b f).dt = s.dt := rfl
@[simp] theorem setRegFlag_st (r : Reg) (b : Byte) (f : Bool) : (s.setRegFlag r b f).st = s.st := rfl
@[simp] theorem setRegFlag_tRef (r : Reg) (b : Byte) (f : Bool) : (s.setRegFlag r b f).tRef = s.tRef := rfl
@[simp] theorem setRegFlag_key (r : Reg) (b : Byte) (f : Bool) : (s.setRegFlag r b f).key = s.key := rfl
@[simp] theorem setRegFlag_pressed (r : Reg) (b : Byte) (f : Bool) : (s.setRegFlag r b f).pressed = s.pressed := rfl
@[simp] theorem setRegFlag_keyRef (r : Reg) (b : Byte) (f : Bool) : (s.setRegFlag r b f).keyRef = s.keyRef := rfl
@[simp] theorem setRegFlag_mem (r : Reg) (b : Byte) (f : Bool) : (s.setRegFlag r b f).mem = s.mem := rfl
@[simp] theorem setRegFlag_fb (r : Reg) (b : Byte) (f : Bool) : (s.setRegFlag r b f).fb = s.fb := rfl
@[simp] theorem setRegFlag_out (r : Reg) (b : Byte) (f : Bool) : (s.setRegFlag r b f).out = s.out := rfl
@[simp] theorem setRegFlag_status (r : Reg) (b : Byte) (f : Bool) : (s.setRegFlag r b f).status = s.status := rfl
@[simp] theorem setRegFlag_clock (r : Reg) (b : Byte) (f : Bool) : (s.setRegFlag r b f).clock = s.clock := rfl
@[simp] theorem setRegFlag_draws (r : Reg) (b : Byte) (f : Bool) : (s.setRegFlag r b f).draws = s.draws := rfl

/-! `push` -/

@[simp] theorem push_v (w : Word) : (s.push w).v = s.v := rfl
@[simp] theorem push_index (w : Word) : (s.push w).index = s.index := rfl
@[simp] theorem push_pc (w : Word) : (s.push w).pc = s.pc := rfl
@[simp] theorem push_dt (w : Word) : (s.push w).dt = s.dt := rfl
@[simp] theorem push_st (w : Word) : (s.push w).st = s.st := rfl
@[simp] theorem push_tRef (w : Word) : (s.push w).tRef = s.tRef := rfl
@[simp] theorem push_key (w : Word) : (s.push w).key = s.key := rfl
@[simp] theorem push_pressed (w : Word) : (s.push w).pressed = s.pressed := rfl
@[simp] theorem push_keyRef (w : Word) : (s.push w).keyRef = s.keyRef := rfl
@[simp] theorem push_mem (w : Word) : (s.push w).mem = s.mem := rfl
@[simp] theorem push_fb (w : Word) : (s.push w).fb = s.fb := rfl
@[simp] theorem push_out (w : Word) : (s.push w).out = s.out := rfl
@[simp] theorem push_status (w : Word) : (s.push w).status = s.status := rfl
@[simp] theorem push_clock (w : Word) : (s.push w).clock = s.clock := rfl
@[simp] theorem push_draws (w : Word) : (s.push w).draws = s.draws := rfl

/-! `emit` -/

@[simp] theorem emit_v (e : OutEvent) : (s.emit e).v = s.v := rfl
@[simp] theorem emit_index (e : OutEvent) : (s.emit e).index = s.index := rfl
@[simp] theorem emit_pc (e : OutEvent) : (s.emit e).pc = s.pc := rfl
@[simp] theorem emit_stack (e : OutEvent) : (s.emit e).stack = s.stack := rfl
@[simp] theorem emit_dt (e : OutEvent) : (s.emit e).dt = s.dt := rfl
@[simp] theorem emit_st (e : OutEvent) : (s.emit e).st = s.st := rfl
@[simp] theorem emit_tRef (e : OutEvent) : (s.emit e).tRef = s.tRef := rfl
@[simp] theorem emit_key (e : OutEvent) : (s.emit e).key = s.key := rfl
@[simp] theorem emit_pressed (e : OutEvent) : (s.emit e).pressed = s.pressed := rfl
@[simp] theorem emit_keyRef (e : OutEvent) : (s.emit e).keyRef = s.keyRef := rfl
@[simp] theorem emit_mem (e : OutEvent) : (s.emit e).mem = s.mem := rfl
@[simp] theorem emit_fb (e : OutEvent) : (s.emit e).fb = s.fb := rfl
@[simp] theorem emit_status (e : OutEvent) : (s.emit e).status = s.status := rfl
@[simp] theorem emit_clock (e : OutEvent) : (s.emit e).clock = s.clock := rfl
@[simp] theorem emit_draws (e : OutEvent) : (s.emit e).draws = s.draws := rfl

/-! `dropEvents` -/

@[simp] theorem dropEvents_v : (s.dropEvents).v = s.v := rfl
@[simp] theorem dropEvents_index : (s.dropEvents).index = s.index := rfl
@[simp] theorem dropEvents_pc : (s.dropEvents).pc = s.pc := rfl
@[simp] theorem dropEvents_stack : (s.dropEvents).stack = s.stack := rfl
@[simp] theorem dropEvents_dt : (s.dropEvents).dt = s.dt := rfl
@[simp] theorem dropEvents_st : (s.dropEvents).st = s.st := rfl
@[simp] theorem dropEvents_tRef : (s.dropEvents).tRef = s.tRef := rfl
@[simp] theorem dropEvents_key : (s.dropEvents).key = s.key := rfl
@[simp] theorem dropEvents_pressed : (s.dropEvents).pressed = s.pressed := rfl
@[simp] theorem dropEvents_keyRef : (s.dropEvents).keyRef = s.keyRef := rfl
@[simp] theorem dropEvents_mem : (s.dropEvents).mem = s.mem := rfl
@[simp] theorem dropEvents_fb : (s.dropEvents).fb = s.fb := rfl
@[simp] theorem dropEvents_out : (s.dropEvents).out = s.out := rfl
@[simp] theorem dropEvents_status : (s.dropEvents).status = s.status := rfl
@[simp] theorem dropEvents_clock : (s.dropEvents).clock = s.clock := rfl

/-! `dropRandom` -/

@[simp] theorem dropRandom_v : (s.dropRandom).v = s.v := by unfold State.dropRandom; split <;> rfl
@[simp] theorem dropRandom_index : (s.dropRandom).index = s.index := by unfold State.dropRandom; split <;> rfl
@[simp] theorem dropRandom_pc : (s.dropRandom).pc = s.pc := by unfold State.dropRandom; split <;> rfl
@[simp] theorem dropRandom_stack : (s.dropRandom).stack = s.stack := by unfold State.dropRandom; split <;> rfl
@[simp] theorem dropRandom_dt : (s.dropRandom).dt = s.dt := by unfold State.dropRandom; split <;> rfl
@[simp] theorem dropRandom_st : (s.dropRandom).st = s.st := by unfold State.dropRandom; split <;> rfl
@[simp] theorem dropRandom_tRef : (s.dropRandom).tRef = s.tRef := by unfold State.dropRandom; split <;> rfl
@[simp] theorem dropRandom_key : (s.dropRandom).key = s.key := by unfold State.dropRandom; split <;> rfl
@[simp] theorem dropRandom_pressed : (s.dropRandom).pressed = s.pressed := by unfold State.dropRandom; split <;> rfl
@[simp] theorem dropRandom_keyRef : (s.dropRandom).keyRef = s.keyRef := by unfold State.dropRandom; split <;> rfl
@[simp] theorem dropRandom_mem : (s.dropRandom).mem = s.mem := by unfold State.dropRandom; split <;> rfl
@[simp] theorem dropRandom_fb : (s.dropRandom).fb = s.fb := by unfold State.dropRandom; split <;> rfl
@[simp] theorem dropRandom_out : (s.dropRandom).out = s.out := by unfold State.dropRandom; split <;> rfl
@[simp] theorem dropRandom_status : (s.dropRandom).status = s.status := by unfold State.dropRandom; split <;> rfl
@[simp] theorem dropRandom_clock : (s.dropRandom).clock = s.clock := by unfold State.dropRandom; split <;> rfl

/-! `readClock` -/

@[simp] theorem readClock_v : (s.readClock).v = s.v := by unfold State.readClock; split <;> rfl
@[simp] theorem readClock_index : (s.readClock).index = s.index := by unfold State.readClock; split <;> rfl
@[simp] theorem readClock_pc : (s.readClock).pc = s.pc := by unfold State.readClock; split <;> rfl
@[simp] theorem readClock_stack : (s.readClock).stack = s.stack := by unfold State.readClock; split <;> rfl
@[simp] theorem readClock_dt : (s.readClock).dt = s.dt := by unfold State.readClock; split <;> rfl
@[simp] theorem readClock_st : (s.readClock).st = s.st := by unfold State.readClock; split <;> rfl
@[simp] theorem readClock_tRef : (s.readClock).tRef = s.tRef := by unfold State.readClock; split <;> rfl
@[simp] theorem readClock_key : (s.readClock).key = s.key := by unfold State.readClock; split <;> rfl
@[simp] theorem readClock_pressed : (s.readClock).pressed = s.pressed := by unfold State.readClock; split <;> rfl
@[simp] theorem readClock_keyRef : (s.readClock).keyRef = s.keyRef := by unfold State.readClock; split <;> rfl
@[simp] theorem readClock_mem : (s.readClock).mem = s.mem := by unfold State.readClock; split <;> rfl
@[simp] theorem readClock_fb : (s.readClock).fb = s.fb := by unfold State.readClock; split <;> rfl
@[simp] theorem readClock_out : (s.readClock).out = s.out := by unfold State.readClock; split <;> rfl
@[simp] theorem readClock_status : (s.readClock).status = s.status := by unfold State.readClock; split <;> rfl

/-! `latchKey` -/

@[simp] theorem latchKey_v (k : Key) : (s.latchKey k).v = s.v := by simp [State.latchKey]
@[simp] theorem latchKey_index (k : Key) : (s.latchKey k).index = s.index := by simp [State.latchKey]
@[simp] theorem latchKey_pc (k : Key) : (s.latchKey k).pc = s.pc := by simp [State.latchKey]
@[simp] theorem latchKey_stack (k : Key) : (s.latchKey k).stack = s.stack := by simp [State.latchKey]
@[simp] theorem latchKey_dt (k : Key) : (s.latchKey k).dt = s.dt := by simp [State.latchKey]
@[simp] theorem latchKey_st (k : Key) : (s.latchKey k).st = s.st := by simp [State.latchKey]
@[simp] theorem latchKey_tRef (k : Key) : (s.latchKey k).tRef = s.tRef := by simp [State.latchKey]
@[simp] theorem latchKey_mem (k : Key) : (s.latchKey k).mem = s.mem := by simp [State.latchKey]
@[simp] theorem latchKey_fb (k : Key) : (s.latchKey k).fb = s.fb := by simp [State.latchKey]
@[simp] theorem latchKey_out (k : Key) : (s.latchKey k).out = s.out := by simp [State.latchKey]
@[simp] theorem latchKey_status (k : Key) : (s.latchKey k).status = s.status := by simp [State.latchKey]

/-! What an update writes. -/

@[simp] theorem push_stack (w : Word) : (s.push w).stack = s.stack ++ [w] := rfl
@[simp] theorem emit_out (e : OutEvent) : (s.emit e).out = s.out ++ [e] := rfl
@[simp] theorem latchKey_key (k : Key) : (s.latchKey k).key = some k := rfl
@[simp] theorem latchKey_pressed (k : Key) : (s.latchKey k).pressed = true := rfl
@[simp] theorem latchKey_keyRef (k : Key) : (s.latchKey k).keyRef = s.readClock.clock := rfl
@[simp] theorem latchKey_clock (k : Key) : (s.latchKey k).clock = s.readClock.clock := rfl
@[simp] theorem latchKey_draws (k : Key) : (s.latchKey k).draws = s.readClock.draws := rfl

/-- A listed event list is the one handed over (spec/60_exceptions.md R240). -/
theorem nextEvents_cons {es : List HostEvent} {rest : List (List HostEvent)} (h : s.draws.events = es :: rest) :
    s.nextEvents = es := by
  rw [State.nextEvents, h]

/-- Handing over uses up one listed event list (R240). -/
@[simp] theorem dropEvents_events : s.dropEvents.draws.events = s.draws.events.tail := by
  unfold State.dropEvents Draws.dropEvents
  split <;> simp_all

/-- Handing over takes no reading. -/
@[simp] theorem dropEvents_readings : s.dropEvents.draws.readings = s.draws.readings := by
  unfold State.dropEvents Draws.dropEvents
  split <;> rfl

/-- Handing over takes no random byte. -/
@[simp] theorem dropEvents_randoms : s.dropEvents.draws.randoms = s.draws.randoms := by
  unfold State.dropEvents Draws.dropEvents
  split <;> rfl

@[simp] theorem dropRandom_events : s.dropRandom.draws.events = s.draws.events := by
  unfold State.dropRandom; split <;> rfl

@[simp] theorem readClock_events : s.readClock.draws.events = s.draws.events := by
  unfold State.readClock; split <;> rfl

/-- A listed reading not below the clock is the one taken, and is used up (spec/60_exceptions.md R241). -/
theorem readClock_listed {r : Time} {rest : List Time} (h : s.draws.readings = r :: rest) (hr : s.clock ≤ r) :
    s.readClock.clock = r ∧ s.readClock.draws.readings = rest := by
  simp only [State.readClock, h, advanceClock, if_pos hr, and_self]

/-- A reading changes the clock and the draws only. -/
theorem readClock_frame : s.readClock = { s with clock := s.readClock.clock, draws := s.readClock.draws } := by
  unfold State.readClock; split <;> rfl

/-- A random draw changes the draws only. -/
theorem dropRandom_frame : s.dropRandom = { s with draws := s.dropRandom.draws } := by
  unfold State.dropRandom; split <;> rfl

theorem advanceClock_ge (a b : Time) : a ≤ advanceClock a b := by
  unfold advanceClock; split
  · assumption
  · exact Rat.le_refl

/-- No reading is below an earlier one (spec/60_exceptions.md R241). -/
theorem readClock_clock_ge : s.clock ≤ s.readClock.clock := by
  unfold State.readClock; split <;> exact advanceClock_ge _ _

/-- Latching a key writes the latch and takes one reading. -/
theorem latchKey_frame (k : Key) :
    s.latchKey k = { s with
      key := some k, pressed := true, keyRef := s.readClock.clock,
      clock := s.readClock.clock, draws := s.readClock.draws } := by
  unfold State.latchKey; rw [readClock_frame s]

end Sys2Proof.Machine
end

