-- ==== Sys2Proof/Laws/Registers.lean ====
section
/-!
SUPPORT. Reading registers after a write: one lemma for each operation that writes registers.
-/
namespace Sys2Proof.Machine

theorem reg_setReg (s : State) (r q : Reg) (b : Byte) :
    (s.setReg r b).reg q = if q = r then b else s.reg q := by
  simp only [State.reg, State.setReg, Vector.getElem_set, Fin.ext_iff, eq_comm]

theorem reg_setFlag (s : State) (f : Bool) (q : Reg) :
    (s.setFlag f).reg q = if q = flagReg then flagByte f else s.reg q :=
  reg_setReg s flagReg q (flagByte f)

/-- The flag wins where the result register is VF (spec/41_register_alu.md R126). -/
theorem reg_setRegFlag (s : State) (r q : Reg) (b : Byte) (f : Bool) :
    (s.setRegFlag r b f).reg q =
      if q = flagReg then flagByte f else if q = r then b else s.reg q := by
  rw [State.setRegFlag, reg_setFlag, reg_setReg]

/-- Registers are read from `v` alone. -/
theorem reg_congr {s t : State} (h : s.v = t.v) (r : Reg) : s.reg r = t.reg r := by
  simp only [State.reg, h]

/-- A register write as a record update. -/
theorem setReg_frame (s : State) (r : Reg) (b : Byte) :
    s.setReg r b = { s with v := (s.setReg r b).v } := rfl

theorem setFlag_frame (s : State) (f : Bool) : s.setFlag f = { s with v := (s.setFlag f).v } := rfl

theorem setRegFlag_frame (s : State) (r : Reg) (b : Byte) (f : Bool) :
    s.setRegFlag r b f = { s with v := (s.setRegFlag r b f).v } := rfl

/-- What loading a list of bytes from register `k` up leaves in each register. -/
theorem loadRegs_get (bs : List Byte) :
    ∀ (v : Vector Byte 16) (k : Nat) (q : Fin 16),
      (loadRegs v k bs)[q.val]'q.isLt =
        if k ≤ q.val then (bs[q.val - k]?).getD (v[q.val]'q.isLt) else v[q.val]'q.isLt := by
  induction bs with
  | nil => intro v k q; simp [loadRegs]
  | cons b bs ih =>
    intro v k q
    unfold loadRegs
    have hq := q.isLt
    split
    · rw [ih]
      rcases Nat.lt_trichotomy k q.val with h | h | h
      · have e : q.val - k = q.val - (k + 1) + 1 := by omega
        rw [if_pos (by omega), if_pos (by omega), e, List.getElem?_cons_succ, Vector.getElem_set_ne]
        omega
      · subst h
        simp
      · rw [if_neg (by omega), if_neg (by omega), Vector.getElem_set_ne]
        omega
    · rw [if_neg (by omega)]

/-- The k-th byte STORE writes is register k (spec/42_index_memory.md R154). -/
theorem regsUpTo_get (s : State) (x q : Reg) (h : q ≤ x) : (s.regsUpTo x)[q.val]? = some (s.reg q) := by
  have hq := q.isLt
  have : q.val < x.val + 1 := by have := Fin.le_def.mp h; omega
  simp [State.regsUpTo, State.reg, this]

theorem regsUpTo_length (s : State) (x : Reg) : (s.regsUpTo x).length = x.val + 1 := by
  have := x.isLt
  simp only [State.regsUpTo, List.length_take, Vector.length_toList]
  omega

end Sys2Proof.Machine
end

