-- ==== Sys2Proof/Laws/Executor.lean ====
section
/-!
SUPPORT. The three ways the executor ends, one lemma each, and what drawing a sprite does to every cell.
-/
namespace Sys2Proof.Machine

theorem completed_eq (s : State) : completed s = .next s := rfl

/-- A retry gives `pc` back the instruction's address (spec/30_encoding.md R77). -/
theorem retry_eq (s : State) : retry s = .next { s with pc := s.pc - 2 } := rfl

/-- A fault writes `status` and `pc` and nothing else (spec/60_exceptions.md R214). -/
theorem raiseFault_eq (s : State) (r : FaultReason) :
    raiseFault s r = .next { s with status := .faulted r, pc := s.pc - 2 } := rfl

/-- A skip changes `pc` only (spec/40_control_flow.md R108). -/
theorem skipIf_eq (c : Bool) (s : State) :
    skipIf c s = .next { s with pc := if c then s.pc + 2 else s.pc } := by
  cases c <;> rfl

theorem drawnRows_le (s : State) (y : Reg) (n : Nibble) :
    startRow s y + drawnRows s y n ≤ Config.screenH := by
  have : startRow s y < Config.screenH := Nat.mod_lt _ (by decide)
  unfold drawnRows
  omega

/-- Sprite row `s` at column `x0` has a set bit on column `qx` of the screen, among its last `left`
bits. -/
def rowBit (s : Byte) (x0 left qx : Nat) : Bool :=
  decide (x0 + 8 ≤ qx + left ∧ x0 ≤ qx ∧ qx < x0 + 8 ∧ qx < Config.screenW) &&
    s.getLsbD (7 - (qx - x0))

theorem rowBit_zero (s : Byte) (x0 qx : Nat) : rowBit s x0 0 qx = false := by
  unfold rowBit
  rw [decide_eq_false (by omega), Bool.false_and]

/-- The next bit is column `x0 + (7 - left)`. -/
theorem rowBit_succ (s : Byte) (x0 qx : Nat) {left : Nat} (h : left < 8) :
    rowBit s x0 (left + 1) qx =
      if qx = x0 + (7 - left) then decide (qx < Config.screenW) && s.getLsbD left
      else rowBit s x0 left qx := by
  unfold rowBit
  split
  · rename_i e
    subst e
    have e : 7 - (x0 + (7 - left) - x0) = left := by omega
    rw [e]
    congr 1
    exact decide_eq_decide.mpr ⟨fun g => g.2.2.2, fun g => by omega⟩
  · congr 1
    exact decide_eq_decide.mpr ⟨fun g => by omega, fun g => by omega⟩

/-- Past the right edge no bit is left. -/
theorem rowBit_past_edge (s : Byte) (x0 qx : Nat) {left : Nat} (h : left ≤ 8)
    (hx : Config.screenW ≤ x0 + (8 - left)) : rowBit s x0 left qx = false := by
  unfold rowBit
  rw [decide_eq_false (by omega), Bool.false_and]

/-! One turn of the inner loop (spec/43_display.md R173). -/

theorem drawBits_past_edge {x0 left : Nat} (s : Byte) (cy : Nat) (acc : Framebuffer × Bool)
    (h : Config.screenW ≤ x0 + (7 - left)) : drawBits s x0 cy (left + 1) acc = acc := by
  rw [drawBits, if_pos h]

theorem drawBits_set {s : Byte} {x0 left : Nat} (cy : Nat) (acc : Framebuffer × Bool)
    (h : ¬ Config.screenW ≤ x0 + (7 - left)) (hb : s.getLsbD left = true) :
    drawBits s x0 cy (left + 1) acc =
      drawBits s x0 cy left ((flip acc.1 (x0 + (7 - left)) cy).1,
        acc.2 || (flip acc.1 (x0 + (7 - left)) cy).2) := by
  rw [drawBits, if_neg h, if_pos hb]

theorem drawBits_clear {s : Byte} {x0 left : Nat} (cy : Nat) (acc : Framebuffer × Bool)
    (h : ¬ Config.screenW ≤ x0 + (7 - left)) (hb : ¬ s.getLsbD left = true) :
    drawBits s x0 cy (left + 1) acc = drawBits s x0 cy left acc := by
  rw [drawBits, if_neg h, if_neg hb]

/-- What the inner loop does to every cell. -/
theorem cellAt_drawBits (s : Byte) (x0 : Nat) {cy : Nat} (hy : cy < Config.screenH) (qx qy : Nat) :
    ∀ left ≤ 8, ∀ acc : Framebuffer × Bool,
      cellAt (drawBits s x0 cy left acc).1 qx qy =
        (cellAt acc.1 qx qy ^^ (decide (qy = cy) && rowBit s x0 left qx)) := by
  intro left
  induction left with
  | zero => intro _ acc; simp [drawBits, rowBit_zero]
  | succ left ih =>
    intro hl acc
    by_cases he : Config.screenW ≤ x0 + (7 - left)
    · have : rowBit s x0 (left + 1) qx = false := rowBit_past_edge _ _ _ hl (by omega)
      simp [drawBits_past_edge s cy acc he, this]
    · rw [rowBit_succ s x0 qx (by omega)]
      by_cases hb : s.getLsbD left = true
      · rw [drawBits_set cy acc he hb, ih (by omega), cellAt_flip _ ⟨by omega, hy⟩]
        by_cases hx : qx = x0 + (7 - left)
        · subst hx
          have h0 : rowBit s x0 left (x0 + (7 - left)) = false := by
            unfold rowBit
            rw [decide_eq_false (by omega), Bool.false_and]
          by_cases hq : qy = cy
          · subst hq
            have : x0 + (7 - left) < Config.screenW := by omega
            simp [hb, h0, this]
          · simp [hq]
        · simp [hx]
      · rw [drawBits_clear cy acc he hb, ih (by omega)]
        by_cases hx : qx = x0 + (7 - left)
        · subst hx
          have h0 : rowBit s x0 left (x0 + (7 - left)) = false := by
            unfold rowBit
            rw [decide_eq_false (by omega), Bool.false_and]
          simp [hb, h0]
        · simp [hx]

/-- The collision of the inner loop: a set bit on a cell that was set. -/
theorem drawBits_collision (s : Byte) (x0 : Nat) {cy : Nat} (hy : cy < Config.screenH) :
    ∀ left ≤ 8, ∀ acc : Framebuffer × Bool,
      (drawBits s x0 cy left acc).2 = true ↔
        acc.2 = true ∨ ∃ qx, rowBit s x0 left qx = true ∧ cellAt acc.1 qx cy = true := by
  intro left
  induction left with
  | zero => intro _ acc; simp [drawBits, rowBit_zero]
  | succ left ih =>
    intro hl acc
    by_cases he : Config.screenW ≤ x0 + (7 - left)
    · have : ∀ qx, rowBit s x0 (left + 1) qx = false := fun qx => rowBit_past_edge _ _ _ hl (by omega)
      simp [drawBits_past_edge s cy acc he, this]
    · have h0 : rowBit s x0 left (x0 + (7 - left)) = false := by
        unfold rowBit
        rw [decide_eq_false (by omega), Bool.false_and]
      have hx : x0 + (7 - left) < Config.screenW := by omega
      by_cases hb : s.getLsbD left = true
      · rw [drawBits_set cy acc he hb, ih (by omega), flip_answer, Bool.or_eq_true, or_assoc]
        apply or_congr_right
        constructor
        · rintro (h | ⟨qx, h, g⟩)
          · exact ⟨_, by rw [rowBit_succ s x0 _ (by omega), if_pos rfl, hb]; simpa using hx, h⟩
          · have hne : qx ≠ x0 + (7 - left) := by rintro rfl; rw [h0] at h; exact absurd h (by decide)
            refine ⟨qx, by rw [rowBit_succ s x0 _ (by omega), if_neg hne]; exact h, ?_⟩
            rwa [cellAt_flip _ ⟨hx, hy⟩, if_neg (by simp [hne])] at g
        · rintro ⟨qx, h, g⟩
          rw [rowBit_succ s x0 _ (by omega)] at h
          by_cases hne : qx = x0 + (7 - left)
          · subst hne; exact .inl g
          · rw [if_neg hne] at h
            refine .inr ⟨qx, h, ?_⟩
            rw [cellAt_flip _ ⟨hx, hy⟩, if_neg (by simp [hne])]
            exact g
      · rw [drawBits_clear cy acc he hb, ih (by omega)]
        apply or_congr_right
        apply exists_congr
        intro qx
        rw [rowBit_succ s x0 _ (by omega)]
        by_cases hne : qx = x0 + (7 - left)
        · subst hne; simp [h0, hb]
        · simp [hne]

/-- The sprite of these rows, at `(x0, cy)`, has a set bit on the cell `(qx, qy)` of the screen. -/
def rowsBit (rows : List Byte) (x0 cy qx qy : Nat) : Bool :=
  decide (cy ≤ qy) && (rows[qy - cy]?).any fun s => rowBit s x0 8 qx

theorem rowsBit_cons (s : Byte) (rows : List Byte) (x0 cy qx qy : Nat) :
    rowsBit (s :: rows) x0 cy qx qy =
      if qy = cy then rowBit s x0 8 qx else rowsBit rows x0 (cy + 1) qx qy := by
  unfold rowsBit
  rcases Nat.lt_trichotomy qy cy with h | h | h
  · rw [if_neg (by omega), decide_eq_false (by omega), decide_eq_false (by omega)]
    rfl
  · subst h; simp
  · have e : qy - cy = qy - (cy + 1) + 1 := by omega
    rw [if_neg (by omega), e, List.getElem?_cons_succ, decide_eq_true (by omega),
      decide_eq_true (by omega)]

/-- What the outer loop does to every cell (spec/43_display.md R173). -/
theorem cellAt_drawRows (x0 qx qy : Nat) (rows : List Byte) :
    ∀ (cy : Nat) (_ : cy + rows.length ≤ Config.screenH) (acc : Framebuffer × Bool),
      cellAt (drawRows x0 cy rows acc).1 qx qy = (cellAt acc.1 qx qy ^^ rowsBit rows x0 cy qx qy) := by
  induction rows with
  | nil => intro cy _ acc; simp [drawRows, rowsBit]
  | cons s rows ih =>
    intro cy hcy acc
    rw [List.length_cons] at hcy
    rw [drawRows, ih (cy + 1) (by omega), cellAt_drawBits s x0 (by omega) qx qy 8 le_rfl, rowsBit_cons]
    by_cases h : qy = cy
    · subst h
      have : rowsBit rows x0 (qy + 1) qx qy = false := by
        unfold rowsBit
        rw [decide_eq_false (by omega), Bool.false_and]
      simp [this]
    · simp [h]

/-- The collision of the whole draw (spec/43_display.md R173). -/
theorem drawRows_collision (x0 : Nat) (rows : List Byte) :
    ∀ (cy : Nat) (_ : cy + rows.length ≤ Config.screenH) (acc : Framebuffer × Bool),
      (drawRows x0 cy rows acc).2 = true ↔
        acc.2 = true ∨ ∃ qx qy, rowsBit rows x0 cy qx qy = true ∧ cellAt acc.1 qx qy = true := by
  induction rows with
  | nil => intro cy _ acc; simp [drawRows, rowsBit]
  | cons s rows ih =>
    intro cy hcy acc
    rw [List.length_cons] at hcy
    rw [drawRows, ih (cy + 1) (by omega), drawBits_collision s x0 (by omega) 8 le_rfl, or_assoc]
    apply or_congr_right
    constructor
    · rintro (⟨qx, h, g⟩ | ⟨qx, qy, h, g⟩)
      · exact ⟨qx, cy, by rw [rowsBit_cons, if_pos rfl]; exact h, g⟩
      · have hne : qy ≠ cy := by
          rintro rfl
          unfold rowsBit at h
          rw [decide_eq_false (by omega), Bool.false_and] at h
          exact absurd h (by decide)
        refine ⟨qx, qy, by rw [rowsBit_cons, if_neg hne]; exact h, ?_⟩
        rw [cellAt_drawBits s x0 (by omega) qx qy 8 le_rfl] at g
        simpa [hne] using g
    · rintro ⟨qx, qy, h, g⟩
      rw [rowsBit_cons] at h
      by_cases hne : qy = cy
      · subst hne; rw [if_pos rfl] at h; exact .inl ⟨qx, h, g⟩
      · rw [if_neg hne] at h
        refine .inr ⟨qx, qy, h, ?_⟩
        rw [cellAt_drawBits s x0 (by omega) qx qy 8 le_rfl]
        simpa [hne] using g

end Sys2Proof.Machine
end

