-- ==== Sys2Proof/Laws/Scheduler.lean ====
section
/-!
SUPPORT. The scheduler: one lemma for each phase that says what it may change, and one inversion of a step.
-/
namespace Sys2Proof.Machine

variable {s s' : State} {keymap : HostKey → Option Key}

/-- Phase 1 changes the latch, its reference, the draws and, on a quit, `status`
(spec/60_exceptions.md R231). -/
theorem inputPhase_frame (es : List HostEvent) : ∀ s : State,
    inputPhase keymap es s = { s with
      key := (inputPhase keymap es s).key
      pressed := (inputPhase keymap es s).pressed
      keyRef := (inputPhase keymap es s).keyRef
      status := (inputPhase keymap es s).status
      clock := (inputPhase keymap es s).clock
      draws := (inputPhase keymap es s).draws } := by
  induction es with
  | nil => intro s; rfl
  | cons e es ih =>
    intro s
    cases e with
    | quit => rfl
    | other => exact ih s
    | keyDown h =>
      simp only [inputPhase]
      cases keymap h with
      | none => exact ih s
      | some k =>
        have e := ih (s.latchKey k)
        simpa only [latchKey_v, latchKey_index, latchKey_pc, latchKey_stack, latchKey_dt, latchKey_st,
          latchKey_tRef, latchKey_mem, latchKey_fb, latchKey_out] using e

/-- Phase 1 leaves `status` alone, or halts on a quit (R231). -/
theorem inputPhase_status (es : List HostEvent) : ∀ s : State,
    (.quit ∈ es ∧ (inputPhase keymap es s).status = .halted) ∨
      (.quit ∉ es ∧ (inputPhase keymap es s).status = s.status) := by
  induction es with
  | nil => intro s; simp [inputPhase]
  | cons e es ih =>
    intro s
    cases e with
    | quit => simp [inputPhase]
    | other => simpa [inputPhase] using ih s
    | keyDown h =>
      simp only [inputPhase, List.mem_cons, reduceCtorEq, false_or]
      cases keymap h with
      | none => exact ih s
      | some k => simpa using ih (s.latchKey k)

/-- Phase 1 uses up no further event list. -/
@[simp] theorem inputPhase_events (es : List HostEvent) : ∀ s : State,
    (inputPhase keymap es s).draws.events = s.draws.events := by
  induction es with
  | nil => intro s; rfl
  | cons e es ih =>
    intro s
    cases e with
    | quit => rfl
    | other => exact ih s
    | keyDown h =>
      simp only [inputPhase]
      cases keymap h with
      | none => exact ih s
      | some k => rw [ih, latchKey_draws, readClock_events]

/-- An update that keeps `pc` and memory keeps what is fetched. -/
theorem fetch_congr (hp : s.pc = s'.pc) (hm : s.mem = s'.mem) : fetch s = fetch s' := by
  simp only [fetch, hp, hm]

/-- Phase 1 does not touch what is fetched. -/
theorem fetch_inputPhase (es : List HostEvent) (s : State) :
    fetch (inputPhase keymap es s) = fetch s := by
  rw [inputPhase_frame]
  rfl

/-- What the fetch answers (spec/30_encoding.md R71, R75). -/
theorem fetch_cases (s : State) :
    (s.pc.toNat + 1 < Config.memSize ∧
      fetch s = .ok (wordOfBytes (memRead s.mem s.pc.toNat) (memRead s.mem (s.pc.toNat + 1)))) ∨
    (Config.memSize ≤ s.pc.toNat + 1 ∧
      fetch s = .error (.addressOutOfRange
        (if s.pc.toNat < Config.memSize then s.pc.toNat + 1 else s.pc.toNat))) := by
  unfold fetch
  by_cases h : Config.memSize ≤ s.pc.toNat + 1
  · exact .inr ⟨h, if_pos h⟩
  · exact .inl ⟨by omega, if_neg h⟩

/-! What each phase leaves alone. Phase 1 (R231): -/

@[simp] theorem inputPhase_v (es : List HostEvent) (s : State) :
    (inputPhase keymap es s).v = s.v := by rw [inputPhase_frame]
@[simp] theorem inputPhase_index (es : List HostEvent) (s : State) :
    (inputPhase keymap es s).index = s.index := by rw [inputPhase_frame]
@[simp] theorem inputPhase_pc (es : List HostEvent) (s : State) :
    (inputPhase keymap es s).pc = s.pc := by rw [inputPhase_frame]
@[simp] theorem inputPhase_stack (es : List HostEvent) (s : State) :
    (inputPhase keymap es s).stack = s.stack := by rw [inputPhase_frame]
@[simp] theorem inputPhase_dt (es : List HostEvent) (s : State) :
    (inputPhase keymap es s).dt = s.dt := by rw [inputPhase_frame]
@[simp] theorem inputPhase_st (es : List HostEvent) (s : State) :
    (inputPhase keymap es s).st = s.st := by rw [inputPhase_frame]
@[simp] theorem inputPhase_tRef (es : List HostEvent) (s : State) :
    (inputPhase keymap es s).tRef = s.tRef := by rw [inputPhase_frame]
@[simp] theorem inputPhase_mem (es : List HostEvent) (s : State) :
    (inputPhase keymap es s).mem = s.mem := by rw [inputPhase_frame]
@[simp] theorem inputPhase_fb (es : List HostEvent) (s : State) :
    (inputPhase keymap es s).fb = s.fb := by rw [inputPhase_frame]
@[simp] theorem inputPhase_out (es : List HostEvent) (s : State) :
    (inputPhase keymap es s).out = s.out := by rw [inputPhase_frame]

/-! Phase 3 (R233): -/

@[simp] theorem timerPhase_v (s : State) : (timerPhase s).v = s.v := by simp [timerPhase]
@[simp] theorem timerPhase_index (s : State) : (timerPhase s).index = s.index := by simp [timerPhase]
@[simp] theorem timerPhase_pc (s : State) : (timerPhase s).pc = s.pc := by simp [timerPhase]
@[simp] theorem timerPhase_stack (s : State) : (timerPhase s).stack = s.stack := by simp [timerPhase]
@[simp] theorem timerPhase_key (s : State) : (timerPhase s).key = s.key := by simp [timerPhase]
@[simp] theorem timerPhase_pressed (s : State) : (timerPhase s).pressed = s.pressed := by simp [timerPhase]
@[simp] theorem timerPhase_keyRef (s : State) : (timerPhase s).keyRef = s.keyRef := by simp [timerPhase]
@[simp] theorem timerPhase_mem (s : State) : (timerPhase s).mem = s.mem := by simp [timerPhase]
@[simp] theorem timerPhase_fb (s : State) : (timerPhase s).fb = s.fb := by simp [timerPhase]
@[simp] theorem timerPhase_out (s : State) : (timerPhase s).out = s.out := by simp [timerPhase]
@[simp] theorem timerPhase_status (s : State) : (timerPhase s).status = s.status := by simp [timerPhase]

/-! Phase 4 (R234): -/

@[simp] theorem soundPhase_v (s : State) : (soundPhase s).v = s.v := by unfold soundPhase; split <;> rfl
@[simp] theorem soundPhase_index (s : State) : (soundPhase s).index = s.index := by unfold soundPhase; split <;> rfl
@[simp] theorem soundPhase_pc (s : State) : (soundPhase s).pc = s.pc := by unfold soundPhase; split <;> rfl
@[simp] theorem soundPhase_stack (s : State) : (soundPhase s).stack = s.stack := by unfold soundPhase; split <;> rfl
@[simp] theorem soundPhase_dt (s : State) : (soundPhase s).dt = s.dt := by unfold soundPhase; split <;> rfl
@[simp] theorem soundPhase_st (s : State) : (soundPhase s).st = s.st := by unfold soundPhase; split <;> rfl
@[simp] theorem soundPhase_tRef (s : State) : (soundPhase s).tRef = s.tRef := by unfold soundPhase; split <;> rfl
@[simp] theorem soundPhase_key (s : State) : (soundPhase s).key = s.key := by unfold soundPhase; split <;> rfl
@[simp] theorem soundPhase_pressed (s : State) : (soundPhase s).pressed = s.pressed := by unfold soundPhase; split <;> rfl
@[simp] theorem soundPhase_keyRef (s : State) : (soundPhase s).keyRef = s.keyRef := by unfold soundPhase; split <;> rfl
@[simp] theorem soundPhase_mem (s : State) : (soundPhase s).mem = s.mem := by unfold soundPhase; split <;> rfl
@[simp] theorem soundPhase_fb (s : State) : (soundPhase s).fb = s.fb := by unfold soundPhase; split <;> rfl
@[simp] theorem soundPhase_status (s : State) : (soundPhase s).status = s.status := by unfold soundPhase; split <;> rfl
@[simp] theorem soundPhase_clock (s : State) : (soundPhase s).clock = s.clock := by unfold soundPhase; split <;> rfl
@[simp] theorem soundPhase_draws (s : State) : (soundPhase s).draws = s.draws := by unfold soundPhase; split <;> rfl

/-! Phase 5 (R235): -/

@[simp] theorem debouncePhase_v (s : State) : (debouncePhase s).v = s.v := by simp [debouncePhase]
@[simp] theorem debouncePhase_index (s : State) : (debouncePhase s).index = s.index := by simp [debouncePhase]
@[simp] theorem debouncePhase_pc (s : State) : (debouncePhase s).pc = s.pc := by simp [debouncePhase]
@[simp] theorem debouncePhase_stack (s : State) : (debouncePhase s).stack = s.stack := by simp [debouncePhase]
@[simp] theorem debouncePhase_dt (s : State) : (debouncePhase s).dt = s.dt := by simp [debouncePhase]
@[simp] theorem debouncePhase_st (s : State) : (debouncePhase s).st = s.st := by simp [debouncePhase]
@[simp] theorem debouncePhase_tRef (s : State) : (debouncePhase s).tRef = s.tRef := by simp [debouncePhase]
@[simp] theorem debouncePhase_keyRef (s : State) : (debouncePhase s).keyRef = s.keyRef := by simp [debouncePhase]
@[simp] theorem debouncePhase_mem (s : State) : (debouncePhase s).mem = s.mem := by simp [debouncePhase]
@[simp] theorem debouncePhase_fb (s : State) : (debouncePhase s).fb = s.fb := by simp [debouncePhase]
@[simp] theorem debouncePhase_out (s : State) : (debouncePhase s).out = s.out := by simp [debouncePhase]
@[simp] theorem debouncePhase_status (s : State) : (debouncePhase s).status = s.status := by simp [debouncePhase]

/-! Phases 3 to 5 together (R230): -/

@[simp] theorem finishIteration_v (s : State) : (finishIteration s).v = s.v := by unfold finishIteration; split <;> simp
@[simp] theorem finishIteration_index (s : State) : (finishIteration s).index = s.index := by unfold finishIteration; split <;> simp
@[simp] theorem finishIteration_pc (s : State) : (finishIteration s).pc = s.pc := by unfold finishIteration; split <;> simp
@[simp] theorem finishIteration_stack (s : State) : (finishIteration s).stack = s.stack := by unfold finishIteration; split <;> simp
@[simp] theorem finishIteration_keyRef (s : State) : (finishIteration s).keyRef = s.keyRef := by unfold finishIteration; split <;> simp
@[simp] theorem finishIteration_mem (s : State) : (finishIteration s).mem = s.mem := by unfold finishIteration; split <;> simp
@[simp] theorem finishIteration_fb (s : State) : (finishIteration s).fb = s.fb := by unfold finishIteration; split <;> simp
@[simp] theorem finishIteration_status (s : State) : (finishIteration s).status = s.status := by unfold finishIteration; split <;> simp

/-- After a fault nothing more happens in the iteration (R214, R230). -/
theorem finishIteration_stopped (h : s.status ≠ .running) : finishIteration s = s := by
  unfold finishIteration
  split
  · exact absurd (by assumption) h
  · rfl
  · rfl

theorem finishIteration_running (h : s.status = .running) :
    finishIteration s = debouncePhase (soundPhase (timerPhase s)) := by
  unfold finishIteration
  rw [h]

/-- Phase 3 changes the timers, their reference and the draws (R233). -/
theorem timerPhase_frame (s : State) :
    timerPhase s = { s with
      tRef := (timerPhase s).tRef, dt := (timerPhase s).dt, st := (timerPhase s).st,
      clock := (timerPhase s).clock, draws := (timerPhase s).draws } := by
  ext1 <;> simp

/-- Phase 4 changes the trace (R234). -/
theorem soundPhase_frame (s : State) : soundPhase s = { s with out := (soundPhase s).out } := by
  ext1 <;> simp

/-- Phase 5 changes the latch and the draws (R235). -/
theorem debouncePhase_frame (s : State) :
    debouncePhase s = { s with
      key := (debouncePhase s).key, pressed := (debouncePhase s).pressed,
      clock := (debouncePhase s).clock, draws := (debouncePhase s).draws } := by
  ext1 <;> simp

@[simp] theorem timerPhase_events (s : State) : (timerPhase s).draws.events = s.draws.events := by
  simp [timerPhase]

@[simp] theorem debouncePhase_events (s : State) : (debouncePhase s).draws.events = s.draws.events := by
  simp [debouncePhase]

@[simp] theorem finishIteration_events (s : State) : (finishIteration s).draws.events = s.draws.events := by
  unfold finishIteration; split <;> simp

/-- Phase 3, with the reading it takes (R233). -/
theorem timerPhase_eq (s : State) :
    timerPhase s = { s.readClock with
      tRef := if Config.tick ≤ s.readClock.clock - s.tRef then s.tRef + Config.tick else s.tRef
      dt := countDown (Config.tick ≤ s.readClock.clock - s.tRef) s.dt
      st := countDown (Config.tick ≤ s.readClock.clock - s.tRef) s.st } := by
  simp [timerPhase]

/-- Phase 5, with the reading it takes (R235). -/
theorem debouncePhase_eq (s : State) :
    debouncePhase s = { s.readClock with
      pressed := s.pressed && !decide (Config.debounce ≤ s.readClock.clock - s.keyRef)
      key := s.key.filter fun _ => !decide (Config.debounce ≤ s.readClock.clock - s.keyRef) } := by
  simp [debouncePhase]

/-- One tick of a timer that is due subtracts 1 and stops at 0 (R26, R27). -/
theorem countDown_toNat (due : Bool) (t : Byte) :
    (countDown due t).toNat = if due then t.toNat - 1 else t.toNat := by
  have := t.isLt
  unfold countDown
  split
  · subst t; cases due <;> rfl
  · rename_i h
    have h0 : t.toNat ≠ 0 := fun e => h (BitVec.eq_of_toNat_eq (by simpa using e))
    cases due
    · rfl
    · simp only [if_true, BitVec.toNat_sub]
      simp only [BitVec.reduceToNat, Nat.reducePow, Nat.reduceSub] at *
      omega

theorem cycle_error {r : FaultReason} (h : fetch s = .error r) :
    cycle s = .next { s with status := .faulted r, pc := s.pc } := by
  rw [cycle, h]; rfl

theorem cycle_ok {w : Word} (h : fetch s = .ok w) :
    cycle s = exec (decodeWord w) { s with pc := s.pc + 2 } := by
  rw [cycle, h]

theorem runCycle_running (h : s.status = .running) {t : State} (hc : cycle s = .next t) :
    runCycle s = .next (finishIteration t) := by
  rw [runCycle, h, hc]

theorem runCycle_inv (h : s.status = .running) (hr : runCycle s = .next s') :
    ∃ t, cycle s = .next t ∧ s' = finishIteration t := by
  rw [runCycle, h] at hr
  cases hc : cycle s with
  | next t =>
    rw [hc] at hr
    exact ⟨t, rfl, by simpa using hr.symm⟩
  | fault f => rw [hc] at hr; simp at hr
  | refused r => rw [hc] at hr; simp at hr

theorem step_running (h : s.status = .running) :
    step s = runCycle (inputPhase Config.keymap s.nextEvents s.dropEvents) := by
  rw [step, iteration, h]

/-- A step that answers a next state ran an iteration in status `Running`, and ended in one of three
ways: a quit, a fault of the fetch, or an executed instruction (R230). -/
theorem step_next_cases (h : step s = .next s') :
    s.status = .running ∧
    ((.quit ∈ s.nextEvents ∧ s' = inputPhase Config.keymap s.nextEvents s.dropEvents) ∨
     (.quit ∉ s.nextEvents ∧ ∃ r, fetch s = .error r ∧
        s' = { inputPhase Config.keymap s.nextEvents s.dropEvents with status := .faulted r }) ∨
     (.quit ∉ s.nextEvents ∧ ∃ w t, fetch s = .ok w ∧
        exec (decodeWord w)
          { inputPhase Config.keymap s.nextEvents s.dropEvents with pc := s.pc + 2 } = .next t ∧
        s' = finishIteration t)) := by
  have hs : s.status = .running := by
    unfold step iteration at h
    cases hs : s.status with
    | running => rfl
    | halted => rw [hs] at h; simp at h
    | faulted r => rw [hs] at h; simp at h
  refine ⟨hs, ?_⟩
  rw [step_running hs] at h
  have hf : fetch (inputPhase Config.keymap s.nextEvents s.dropEvents) = fetch s :=
    (fetch_inputPhase ..).trans (fetch_congr rfl rfl)
  have hp : (inputPhase Config.keymap s.nextEvents s.dropEvents).pc = s.pc := by simp
  have hst := inputPhase_status (keymap := Config.keymap) s.nextEvents s.dropEvents
  generalize inputPhase Config.keymap s.nextEvents s.dropEvents = t0 at *
  rcases hst with ⟨hq, ht⟩ | ⟨hq, ht⟩
  · rw [runCycle, ht] at h
    exact .inl ⟨hq, by simpa using h.symm⟩
  · right
    rw [dropEvents_status, hs] at ht
    obtain ⟨t, hc, rfl⟩ := runCycle_inv ht h
    rcases hfe : fetch s with r | w
    · left
      rw [cycle_error (hf.trans hfe), Host.Outcome.next.injEq] at hc
      subst hc
      exact ⟨hq, r, rfl, finishIteration_stopped (by simp)⟩
    · right
      rw [cycle_ok (hf.trans hfe), hp] at hc
      exact ⟨hq, w, t, rfl, hc, rfl⟩

end Sys2Proof.Machine
end

