-- ==== Sys2Proof/Laws/Instructions.lean ====
section
/-!
SUPPORT. The shapes the executor's meanings have, as lemmas later proofs cite, and the host's fetch word.
-/
namespace Sys2Proof.Machine

/-- Every instruction of every state answers a next state: none stops the machine outside of `status`
(spec/60_exceptions.md R210, R249). -/
theorem exec_answers (i : Instr) (s : State) : ∃ t, exec i s = .next t := by
  cases i <;> first
    | exact ⟨_, rfl⟩
    | exact ⟨_, skipIf_eq _ _⟩
    | skip
  case ret | call | display | getKey | binaryCodedDecimal | store | load =>
    simp only [exec, execRet, execCall, execDisplay, execGetKey, execBinaryCodedDecimal, execStore, execLoad]
    split <;> exact ⟨_, rfl⟩

/-- No instruction takes host events (spec/60_exceptions.md R231, R240). -/
theorem exec_events {i : Instr} {s t : State} (h : exec i s = .next t) : t.draws.events = s.draws.events := by
  cases i <;> first
    | (obtain rfl := Host.Outcome.next.inj h; rfl)
    | skip
  case skipEqImm | skipNeImm | skipEqReg | skipNeReg | skipIfKey | skipIfNotKey =>
    obtain rfl := Host.Outcome.next.inj ((skipIf_eq _ _).symm.trans h)
    rfl
  case random x nn =>
    obtain rfl := Host.Outcome.next.inj h
    simp
  case setDelayTimer | setBeapTimer =>
    obtain rfl := Host.Outcome.next.inj h
    exact readClock_events s
  case ret | call | display | getKey | binaryCodedDecimal | store | load =>
    simp only [exec, execRet, execCall, execDisplay, execGetKey, execBinaryCodedDecimal, execStore, execLoad] at h
    split at h <;> (obtain rfl := Host.Outcome.next.inj h; rfl)

/-- Every step from status `Running` answers a next state, whatever the host's events are (R230). -/
theorem step_answers {s : State} (h : s.status = .running) : ∃ t, step s = .next t := by
  rw [step_running h]
  generalize inputPhase Config.keymap s.nextEvents s.dropEvents = t0
  unfold runCycle
  cases t0.status with
  | halted | faulted _ => exact ⟨_, rfl⟩
  | running =>
    obtain ⟨t, ht⟩ : ∃ t, cycle t0 = .next t := by
      rcases hf : fetch t0 with r | w
      · exact ⟨_, cycle_error hf⟩
      · rw [cycle_ok hf]
        exact exec_answers _ _
    rw [ht]
    exact ⟨_, rfl⟩

/-- The host's word comes with no quit (log entry 5). -/
theorem quit_not_mem_withFetchWord (s : State) (nbits w : Nat) :
    .quit ∉ (s.withFetchWord nbits w).nextEvents := by
  simp only [State.withFetchWord, placeWord, State.nextEvents]
  cases s.draws.events with
  | nil => simp [quietEvents]
  | cons es rest => simp [quietEvents]

/-- Two bytes lie at the address the host's word is put at. -/
theorem fetchAddress_lt (s : State) : (fetchAddress s).toNat + 1 < Config.memSize := by
  unfold fetchAddress
  split
  · assumption
  · decide

/-- The next fetch reads the word the host placed (log entry 5). -/
theorem fetch_withFetchWord (s : State) (hw : s.mem.wf) (nbits w : Nat) :
    fetch (s.withFetchWord nbits w) = .ok (BitVec.ofNat 16 (w % 2 ^ nbits)) := by
  have h := fetchAddress_lt s
  have hb : (fetchAddress s).toNat + (bytesOfWord (BitVec.ofNat 16 (w % 2 ^ nbits))).length
      ≤ Config.memSize := by
    simp only [bytesOfWord, List.length_cons, List.length_nil]; omega
  refine (if_neg (Nat.not_le.mpr h)).trans (congrArg Except.ok ?_)
  change wordOfBytes (memRead (memWriteAll _ _ _) _) (memRead (memWriteAll _ _ _) _) = _
  rw [memRead_memWriteAll _ hw hb, memRead_memWriteAll _ hw hb,
    show (s.withFetchWord nbits w).pc = fetchAddress s from rfl]
  simp [bytesOfWord]

end Sys2Proof.Machine
end

