-- ==== Sys2Proof/Laws/PerInstr.lean ====
section
/-!
SUPPORT. Laws about every instruction as an instruction: family `Encoding` holds the encoder against the opcode
map (spec/30_encoding.md R81). One lemma for each constructor.
-/
namespace Sys2Proof.Laws

/-- The word of a well-formed instruction is covered by the rows of its own category and no other; for
UNKNOWN there is none (R81, R82). -/
def Encoding.Statement (i : Instr) : Prop :=
  i.wellFormed = true → ∀ r ∈ opcodeMap, rowCovers r (encode i) = true ↔ r.mnemonic = i.mnemonic

/-- A word of a family with sub-opcodes in the low byte. -/
theorem covers_low_byte {w : Word} {op : Nibble} {nn : Byte} (ho : opField w = op)
    (hn : nnField w = nn) (hop : ∀ r ∈ opcodeMap, op = opField r.pattern → r.mask = 0xF0FF)
    {r : OpcodeRow} (hr : r ∈ opcodeMap) :
    rowCovers r w = true ↔ op = opField r.pattern ∧ nn = nnField r.pattern := by
  rw [rowCovers_fields hr, ho, hn]
  constructor
  · exact fun h => ⟨h.1, h.2.1 (hop r hr h.1)⟩
  · rintro ⟨h, g⟩
    have hm := hop r hr h
    exact ⟨h, fun _ => g, fun e => absurd (hm.symm.trans e) (by decide)⟩

/-- A word of family 0x8, with the sub-opcode in the low nibble. -/
theorem covers_low_nibble {w : Word} {op n : Nibble} (ho : opField w = op)
    (hn : nField w = n) (hop : ∀ r ∈ opcodeMap, op = opField r.pattern → r.mask = 0xF00F)
    {r : OpcodeRow} (hr : r ∈ opcodeMap) :
    rowCovers r w = true ↔ op = opField r.pattern ∧ n = nField r.pattern := by
  rw [rowCovers_fields hr, ho, hn]
  constructor
  · exact fun h => ⟨h.1, h.2.2 (hop r hr h.1)⟩
  · rintro ⟨h, g⟩
    have hm := hop r hr h
    exact ⟨h, fun e => absurd (hm.symm.trans e) (by decide), fun _ => g⟩

theorem Encoding.jump (nnn : Addr12) : Encoding.Statement (.jump nnn) := fun _ r hr => by
  rw [encode, rowCovers_single (opField_packNNN ..) (by decide) hr, Instr.mnemonic]
  revert r
  decide

theorem Encoding.call (nnn : Addr12) : Encoding.Statement (.call nnn) := fun _ r hr => by
  rw [encode, rowCovers_single (opField_packNNN ..) (by decide) hr, Instr.mnemonic]
  revert r
  decide

theorem Encoding.skipEqImm (x : Reg) (nn : Byte) : Encoding.Statement (.skipEqImm x nn) := fun _ r hr => by
  rw [encode, rowCovers_single (opField_packXNN ..) (by decide) hr, Instr.mnemonic]
  revert r
  decide

theorem Encoding.skipNeImm (x : Reg) (nn : Byte) : Encoding.Statement (.skipNeImm x nn) := fun _ r hr => by
  rw [encode, rowCovers_single (opField_packXNN ..) (by decide) hr, Instr.mnemonic]
  revert r
  decide

theorem Encoding.skipEqReg (x : Reg) (y : Reg) : Encoding.Statement (.skipEqReg x y) := fun _ r hr => by
  rw [encode, rowCovers_single (opField_packXYN ..) (by decide) hr, Instr.mnemonic]
  revert r
  decide

theorem Encoding.setImm (x : Reg) (nn : Byte) : Encoding.Statement (.setImm x nn) := fun _ r hr => by
  rw [encode, rowCovers_single (opField_packXNN ..) (by decide) hr, Instr.mnemonic]
  revert r
  decide

theorem Encoding.addImm (x : Reg) (nn : Byte) : Encoding.Statement (.addImm x nn) := fun _ r hr => by
  rw [encode, rowCovers_single (opField_packXNN ..) (by decide) hr, Instr.mnemonic]
  revert r
  decide

theorem Encoding.skipNeReg (x : Reg) (y : Reg) : Encoding.Statement (.skipNeReg x y) := fun _ r hr => by
  rw [encode, rowCovers_single (opField_packXYN ..) (by decide) hr, Instr.mnemonic]
  revert r
  decide

theorem Encoding.setIndex (nnn : Addr12) : Encoding.Statement (.setIndex nnn) := fun _ r hr => by
  rw [encode, rowCovers_single (opField_packNNN ..) (by decide) hr, Instr.mnemonic]
  revert r
  decide

theorem Encoding.jumpOffset (nnn : Addr12) : Encoding.Statement (.jumpOffset nnn) := fun _ r hr => by
  rw [encode, rowCovers_single (opField_packNNN ..) (by decide) hr, Instr.mnemonic]
  revert r
  decide

theorem Encoding.random (x : Reg) (nn : Byte) : Encoding.Statement (.random x nn) := fun _ r hr => by
  rw [encode, rowCovers_single (opField_packXNN ..) (by decide) hr, Instr.mnemonic]
  revert r
  decide

theorem Encoding.display (x : Reg) (y : Reg) (n : Nibble) : Encoding.Statement (.display x y n) := fun _ r hr => by
  rw [encode, rowCovers_single (opField_packXYN ..) (by decide) hr, Instr.mnemonic]
  revert r
  decide

theorem Encoding.clear : Encoding.Statement .clear := fun _ r hr => by
  rw [encode, covers_low_byte (opField_packXNN ..) (nnField_packXNN ..) (by decide) hr, Instr.mnemonic]
  revert r
  decide

theorem Encoding.ret : Encoding.Statement .ret := fun _ r hr => by
  rw [encode, covers_low_byte (opField_packXNN ..) (nnField_packXNN ..) (by decide) hr, Instr.mnemonic]
  revert r
  decide

theorem Encoding.skipIfKey (x : Reg) : Encoding.Statement (.skipIfKey x) := fun _ r hr => by
  rw [encode, covers_low_byte (opField_packXNN ..) (nnField_packXNN ..) (by decide) hr, Instr.mnemonic]
  revert r
  decide

theorem Encoding.skipIfNotKey (x : Reg) : Encoding.Statement (.skipIfNotKey x) := fun _ r hr => by
  rw [encode, covers_low_byte (opField_packXNN ..) (nnField_packXNN ..) (by decide) hr, Instr.mnemonic]
  revert r
  decide

theorem Encoding.readDelayTimer (x : Reg) : Encoding.Statement (.readDelayTimer x) := fun _ r hr => by
  rw [encode, covers_low_byte (opField_packXNN ..) (nnField_packXNN ..) (by decide) hr, Instr.mnemonic]
  revert r
  decide

theorem Encoding.getKey (x : Reg) : Encoding.Statement (.getKey x) := fun _ r hr => by
  rw [encode, covers_low_byte (opField_packXNN ..) (nnField_packXNN ..) (by decide) hr, Instr.mnemonic]
  revert r
  decide

theorem Encoding.setDelayTimer (x : Reg) : Encoding.Statement (.setDelayTimer x) := fun _ r hr => by
  rw [encode, covers_low_byte (opField_packXNN ..) (nnField_packXNN ..) (by decide) hr, Instr.mnemonic]
  revert r
  decide

theorem Encoding.setBeapTimer (x : Reg) : Encoding.Statement (.setBeapTimer x) := fun _ r hr => by
  rw [encode, covers_low_byte (opField_packXNN ..) (nnField_packXNN ..) (by decide) hr, Instr.mnemonic]
  revert r
  decide

theorem Encoding.addIndex (x : Reg) : Encoding.Statement (.addIndex x) := fun _ r hr => by
  rw [encode, covers_low_byte (opField_packXNN ..) (nnField_packXNN ..) (by decide) hr, Instr.mnemonic]
  revert r
  decide

theorem Encoding.font (x : Reg) : Encoding.Statement (.font x) := fun _ r hr => by
  rw [encode, covers_low_byte (opField_packXNN ..) (nnField_packXNN ..) (by decide) hr, Instr.mnemonic]
  revert r
  decide

theorem Encoding.binaryCodedDecimal (x : Reg) : Encoding.Statement (.binaryCodedDecimal x) := fun _ r hr => by
  rw [encode, covers_low_byte (opField_packXNN ..) (nnField_packXNN ..) (by decide) hr, Instr.mnemonic]
  revert r
  decide

theorem Encoding.store (x : Reg) : Encoding.Statement (.store x) := fun _ r hr => by
  rw [encode, covers_low_byte (opField_packXNN ..) (nnField_packXNN ..) (by decide) hr, Instr.mnemonic]
  revert r
  decide

theorem Encoding.load (x : Reg) : Encoding.Statement (.load x) := fun _ r hr => by
  rw [encode, covers_low_byte (opField_packXNN ..) (nnField_packXNN ..) (by decide) hr, Instr.mnemonic]
  revert r
  decide

theorem Encoding.setReg (x : Reg) (y : Reg) : Encoding.Statement (.setReg x y) := fun _ r hr => by
  rw [encode, covers_low_nibble (opField_packXYN ..) (nField_packXYN ..) (by decide) hr, Instr.mnemonic]
  revert r
  decide

theorem Encoding.or (x : Reg) (y : Reg) : Encoding.Statement (.or x y) := fun _ r hr => by
  rw [encode, covers_low_nibble (opField_packXYN ..) (nField_packXYN ..) (by decide) hr, Instr.mnemonic]
  revert r
  decide

theorem Encoding.and (x : Reg) (y : Reg) : Encoding.Statement (.and x y) := fun _ r hr => by
  rw [encode, covers_low_nibble (opField_packXYN ..) (nField_packXYN ..) (by decide) hr, Instr.mnemonic]
  revert r
  decide

theorem Encoding.xor (x : Reg) (y : Reg) : Encoding.Statement (.xor x y) := fun _ r hr => by
  rw [encode, covers_low_nibble (opField_packXYN ..) (nField_packXYN ..) (by decide) hr, Instr.mnemonic]
  revert r
  decide

theorem Encoding.add (x : Reg) (y : Reg) : Encoding.Statement (.add x y) := fun _ r hr => by
  rw [encode, covers_low_nibble (opField_packXYN ..) (nField_packXYN ..) (by decide) hr, Instr.mnemonic]
  revert r
  decide

theorem Encoding.subtract (x : Reg) (y : Reg) : Encoding.Statement (.subtract x y) := fun _ r hr => by
  rw [encode, covers_low_nibble (opField_packXYN ..) (nField_packXYN ..) (by decide) hr, Instr.mnemonic]
  revert r
  decide

theorem Encoding.rshift (x : Reg) : Encoding.Statement (.rshift x) := fun _ r hr => by
  rw [encode, covers_low_nibble (opField_packXYN ..) (nField_packXYN ..) (by decide) hr, Instr.mnemonic]
  revert r
  decide

theorem Encoding.isubtract (x : Reg) (y : Reg) : Encoding.Statement (.isubtract x y) := fun _ r hr => by
  rw [encode, covers_low_nibble (opField_packXYN ..) (nField_packXYN ..) (by decide) hr, Instr.mnemonic]
  revert r
  decide

theorem Encoding.lshift (x : Reg) : Encoding.Statement (.lshift x) := fun _ r hr => by
  rw [encode, covers_low_nibble (opField_packXYN ..) (nField_packXYN ..) (by decide) hr, Instr.mnemonic]
  revert r
  decide

theorem Encoding.unknown (w : Word) : Encoding.Statement (.unknown w) := fun hw r hr => by
  have h : rowCovers r w = false := by
    simpa using List.all_eq_true.mp (show isUnknownWord w = true from hw) r hr
  have hu : r.mnemonic ≠ "UNKNOWN" := (by decide : ∀ q ∈ opcodeMap, q.mnemonic ≠ "UNKNOWN") r hr
  rw [encode, h, Instr.mnemonic]
  simp [hu]

end Sys2Proof.Laws
end

