-- ==== Sys2Proof/Tests/Slice0.lean ====
section
/-!
SUPPORT. Tests of one step or less, with the results spec/95_test_vectors.md gives (the vector stands in each
comment), and witnesses: for every statement with hypotheses, concrete states and operands that meet them.
-/
namespace Sys2Proof.Tests
open Sys2Proof.Machine

/-! ## Well-formed instructions: an UNKNOWN holds a word no row covers (spec/30_encoding.md R82) -/

theorem test_wf_unknown_refuses_clear : (Instr.unknown 0x00E0).wellFormed = false := by decide
theorem test_wf_unknown_refuses_ignored_bits : (Instr.unknown 0x5121).wellFormed = false := by decide
theorem test_wf_unknown_refuses_load : (Instr.unknown 0xFF65).wellFormed = false := by decide
theorem test_wf_unknown_accepts : (Instr.unknown 0x0123).wellFormed = true := by decide
theorem test_wf_load_accepts : (Instr.load 15).wellFormed = true := by decide

/-! ## Decode: one word for every constructor, written out from its row of spec/30_encoding.md R81 in the bits of
its format (R73) -/

theorem test_decode_family0 :
    decodeTableWord 16 0b0000_0000_1110_0000 = some .clear ∧
    decodeTableWord 16 0b0000_0000_1110_1110 = some .ret := by decide
theorem test_decode_nnn :
    decodeTableWord 16 0b0001_0010_0011_0100 = some (.jump 0x234) ∧
    decodeTableWord 16 0b0010_0011_0000_1010 = some (.call 0x30A) ∧
    decodeTableWord 16 0b1010_1111_0000_0001 = some (.setIndex 0xF01) ∧
    decodeTableWord 16 0b1011_1111_1000_0000 = some (.jumpOffset 0xF80) := by decide
theorem test_decode_xnn :
    decodeTableWord 16 0b0011_0011_0010_1010 = some (.skipEqImm 3 0x2A) ∧
    decodeTableWord 16 0b0100_1010_1000_0001 = some (.skipNeImm 10 0x81) ∧
    decodeTableWord 16 0b0110_0101_0011_1100 = some (.setImm 5 0x3C) ∧
    decodeTableWord 16 0b0111_1111_0000_0001 = some (.addImm 15 0x01) ∧
    decodeTableWord 16 0b1100_0010_0000_1111 = some (.random 2 0x0F) := by decide
theorem test_decode_skip_reg :
    decodeTableWord 16 0b0101_0001_0010_0000 = some (.skipEqReg 1 2) ∧
    decodeTableWord 16 0b1001_0010_0001_0000 = some (.skipNeReg 2 1) := by decide
theorem test_decode_logic :
    decodeTableWord 16 0b1000_0001_0010_0000 = some (.setReg 1 2) ∧
    decodeTableWord 16 0b1000_0001_0010_0001 = some (.or 1 2) ∧
    decodeTableWord 16 0b1000_0001_0010_0010 = some (.and 1 2) ∧
    decodeTableWord 16 0b1000_0001_0010_0011 = some (.xor 1 2) := by decide
theorem test_decode_arithmetic :
    decodeTableWord 16 0b1000_0001_0010_0100 = some (.add 1 2) ∧
    decodeTableWord 16 0b1000_0001_0010_0101 = some (.subtract 1 2) ∧
    decodeTableWord 16 0b1000_0100_0000_0110 = some (.rshift 4) ∧
    decodeTableWord 16 0b1000_0001_0010_0111 = some (.isubtract 1 2) ∧
    decodeTableWord 16 0b1000_0100_0000_1110 = some (.lshift 4) := by decide
theorem test_decode_display : decodeTableWord 16 0b1101_0001_0010_0101 = some (.display 1 2 5) := by decide
theorem test_decode_keys :
    decodeTableWord 16 0b1110_0011_1001_1110 = some (.skipIfKey 3) ∧
    decodeTableWord 16 0b1110_0011_1010_0001 = some (.skipIfNotKey 3) ∧
    decodeTableWord 16 0b1111_0010_0000_1010 = some (.getKey 2) := by decide
theorem test_decode_timers :
    decodeTableWord 16 0b1111_0110_0000_0111 = some (.readDelayTimer 6) ∧
    decodeTableWord 16 0b1111_0001_0001_0101 = some (.setDelayTimer 1) ∧
    decodeTableWord 16 0b1111_0010_0001_1000 = some (.setBeapTimer 2) := by decide
theorem test_decode_index :
    decodeTableWord 16 0b1111_0011_0001_1110 = some (.addIndex 3) ∧
    decodeTableWord 16 0b1111_1010_0010_1001 = some (.font 10) ∧
    decodeTableWord 16 0b1111_0000_0011_0011 = some (.binaryCodedDecimal 0) ∧
    decodeTableWord 16 0b1111_0001_0101_0101 = some (.store 1) ∧
    decodeTableWord 16 0b1111_1111_0110_0101 = some (.load 15) := by decide
/-- L2.1: the rows with ignored bits. -/
theorem test_decode_ignored_bits :
    decodeTableWord 16 0x01E0 = some .clear ∧ decodeTableWord 16 0x0FEE = some .ret ∧
    decodeTableWord 16 0x5121 = some (.skipEqReg 1 2) ∧ decodeTableWord 16 0x912F = some (.skipNeReg 1 2) ∧
    decodeTableWord 16 0x8FF6 = some (.rshift 15) := by decide
/-- L2.1: the UNKNOWN rows. -/
theorem test_decode_unknown :
    ∀ w ∈ [0x0000, 0x0123, 0x00E1, 0x8008, 0x800F, 0xE09F, 0xE000, 0xF000, 0xF0FF, 0xF075],
      decodeTableWord 16 w = some (.unknown (BitVec.ofNat 16 w)) := by decide
theorem test_decode_truncated : decodeBytes [0x00] = .error .truncated := by decide

/-! ## One step each -/

/-- The outcome is a next state of which `p` holds. -/
def next? (p : State → Bool) : Outcome → Bool
  | .next t => p t
  | .fault _ => false
  | .refused _ => false

/-- A step that runs the word `w`, from `s`. -/
def run (w : Nat) (s : State) : Outcome := step (s.withFetchWord 16 w)

/-- Reset with some registers written. -/
def regs (l : List (Reg × Byte)) : State := l.foldl (fun s p => s.setReg p.1 p.2) State.reset

/-- With a pressed key (spec/10_state.md R30) whose window is open at every reading up to 1/60. -/
def withKey (k : Key) (s : State) : State :=
  { s with key := some k, pressed := true, draws := { s.draws with readings := [0, 0] } }

/-- With an iteration to come that has no events. -/
def quiet (s : State) : State := { s with draws := { s.draws with events := [[]] } }

/-- With clock readings to come. -/
def withReadings (l : List Time) (s : State) : State := { s with draws := { s.draws with readings := l } }

/-- A full stack, and one with a place left. -/
def stackOf (n : Nat) : State := { State.reset with stack := List.replicate n 0x206, pc := 0x204 }

/-- Status `Faulted(AddressOutOfRange(0x1000))`, at `pc`, with the registers kept. -/
def faultedAt (a : Word) (s t : State) : Bool :=
  t.status == .faulted (.addressOutOfRange 0x1000) && t.pc == a && t.v == s.v

-- L2.2, L1.1 to L1.3
theorem test_setImm : next? (fun t => t.reg 5 == 0x3C && t.pc == 0x202) (run 0x653C State.reset) := by decide
theorem test_addImm_no_flag :
    next? (fun t => t.reg 0 == 0x01 && t.reg 15 == 0x55) (run 0x7003 (regs [(0, 0xFE), (15, 0x55)])) := by decide
theorem test_setReg : next? (fun t => t.reg 1 == 0x11) (run 0x8120 (regs [(2, 0x11)])) := by decide
theorem test_or_no_flag :
    next? (fun t => t.reg 1 == 0xFF && t.reg 15 == 0x77)
      (run 0x8121 (regs [(1, 0x0F), (2, 0xF0), (15, 0x77)])) := by decide
theorem test_and : next? (fun t => t.reg 1 == 0x0C) (run 0x8122 (regs [(1, 0x3C), (2, 0x0F)])) := by decide
theorem test_xor : next? (fun t => t.reg 1 == 0x33) (run 0x8123 (regs [(1, 0x3C), (2, 0x0F)])) := by decide
theorem test_add_carry :
    next? (fun t => t.reg 1 == 0xFE && t.reg 15 == 1) (run 0x8124 (regs [(1, 0xFF), (2, 0xFF)])) := by decide
theorem test_add_into_flag : next? (fun t => t.reg 15 == 1) (run 0x8F14 (regs [(15, 0xF0), (1, 0x20)])) := by decide
theorem test_subtract_equal :
    next? (fun t => t.reg 1 == 0 && t.reg 15 == 0) (run 0x8125 (regs [(1, 0x42), (2, 0x42)])) := by decide
theorem test_subtract_greater :
    next? (fun t => t.reg 1 == 0x0F && t.reg 15 == 1) (run 0x8125 (regs [(1, 0x10), (2, 0x01)])) := by decide
theorem test_isubtract_equal :
    next? (fun t => t.reg 1 == 0 && t.reg 15 == 0) (run 0x8127 (regs [(1, 0x05), (2, 0x05)])) := by decide
theorem test_isubtract_less :
    next? (fun t => t.reg 1 == 0xF1 && t.reg 15 == 0) (run 0x8127 (regs [(1, 0x10), (2, 0x01)])) := by decide
theorem test_rshift_ignores_y :
    next? (fun t => t.reg 4 == 0 && t.reg 15 == 1 && t.reg 9 == 0xAA)
      (run 0x8496 (regs [(4, 0x01), (9, 0xAA)])) := by decide
theorem test_rshift_flag_register : next? (fun t => t.reg 15 == 0) (run 0x8F06 (regs [(15, 0x04)])) := by decide
theorem test_lshift :
    next? (fun t => t.reg 4 == 0x82 && t.reg 15 == 0) (run 0x840E (regs [(4, 0x41)])) := by decide
theorem test_lshift_flag_register : next? (fun t => t.reg 15 == 1) (run 0x8F0E (regs [(15, 0x81)])) := by decide
theorem test_random :
    next? (fun t => t.reg 2 == 0x07)
      (run 0xC20F { State.reset with draws := { State.reset.draws with randoms := [0xA7] } }) := by decide

-- L2.3
theorem test_jump_odd : next? (fun t => t.pc == 0x201) (run 0x1201 State.reset) := by decide
theorem test_call : next? (fun t => t.pc == 0x30A && t.stack == [0x206]) (run 0x230A (stackOf 0)) := by decide
theorem test_call_overflow :
    next? (fun t => t.pc == 0x204 && t.stack.length == 16 && t.status == .faulted .stackOverflow)
      (run 0x230A (stackOf 16)) := by decide
theorem test_ret : next? (fun t => t.pc == 0x206 && t.stack == []) (run 0x00EE (stackOf 1)) := by decide
theorem test_ret_empty :
    next? (fun t => t.pc == 0x30C && t.stack == [])
      (run 0x00EE { State.reset with pc := 0x30A }) := by decide
theorem test_skipEqImm : next? (fun t => t.pc == 0x204) (run 0x332A (regs [(3, 0x2A)])) := by decide
theorem test_skipEqImm_not : next? (fun t => t.pc == 0x202) (run 0x332A (regs [(3, 0x2B)])) := by decide
theorem test_skipNeImm : next? (fun t => t.pc == 0x204) (run 0x432A (regs [(3, 0x2B)])) := by decide
theorem test_skipEqReg : next? (fun t => t.pc == 0x204) (run 0x5120 (regs [(1, 7), (2, 7)])) := by decide
theorem test_skipNeReg : next? (fun t => t.pc == 0x204) (run 0x9120 (regs [(1, 7), (2, 8)])) := by decide
theorem test_jumpOffset : next? (fun t => t.pc == 0x107F) (run 0xBF80 (regs [(0, 0xFF)])) := by decide

-- L2.4, L1.8, L1.10
theorem test_setIndex : next? (fun t => t.index == 0x300) (run 0xA300 State.reset) := by decide
theorem test_addIndex_wraps :
    next? (fun t => t.index == 0 && t.reg 15 == 1) (run 0xF11E { regs [(1, 1)] with index := 0xFFF }) := by decide
theorem test_addIndex_flag_register :
    next? (fun t => t.index == 0x080 && t.reg 15 == 0) (run 0xFF1E (regs [(15, 0x80)])) := by decide
theorem test_font : next? (fun t => t.index == 0x082) (run 0xF029 (regs [(0, 0x1A)])) := by decide
theorem test_bcd_top :
    next? (fun t => memReadAll t.mem 0xFFD 3 == [2, 5, 5])
      (run 0xF033 { regs [(0, 255)] with index := 0xFFD }) := by decide
theorem test_bcd_fault :
    next? (fun t => faultedAt 0x200 State.reset t && memReadAll t.mem 0xFFE 2 == [0, 0])
      (run 0xF033 { State.reset with index := 0xFFE }) := by decide
theorem test_store :
    next? (fun t => memReadAll t.mem 0x400 3 == [1, 2, 0] && t.index == 0x400)
      (run 0xF155 { regs [(0, 1), (1, 2), (2, 9)] with index := 0x400 }) := by decide
theorem test_store_fault :
    next? (fun t => memReadAll t.mem 0xFFE 2 == [0, 0] && t.status == .faulted (.addressOutOfRange 0x1000))
      (run 0xF255 { regs [(0, 1), (1, 2)] with index := 0xFFE }) := by decide
theorem test_load :
    next? (fun t => (List.range 16).all (fun k => t.v.toList[k]? == some (BitVec.ofNat 8 k)) && t.index == 0xFF0)
      (run 0xFF65 { State.reset with
        index := 0xFF0, mem := memWriteAll [] 0xFF0 ((List.range 16).map (BitVec.ofNat 8)) }) := by decide
theorem test_load_fault :
    next? (faultedAt 0x200 (regs [(3, 7)])) (run 0xFF65 { regs [(3, 7)] with index := 0xFF1 }) := by decide

-- L2.5
theorem test_clear :
    next? (fun t => !cellAt t.fb 63 31 && !cellAt t.fb 0 0 && t.out == [.cleared])
      (run 0x00E0 { State.reset with fb := (flip blankFramebuffer 63 31).1 }) := by decide
theorem test_display_clips :
    next? (fun t => cellAt t.fb 62 0 && cellAt t.fb 63 0 && cellAt t.fb 62 1 && !cellAt t.fb 63 1 &&
        cellAt t.fb 63 2 && cellAt t.fb 62 4 && !cellAt t.fb 0 0 && !cellAt t.fb 61 0 && t.reg 15 == 0)
      (run 0xD125 { regs [(1, 62)] with index := 0x082 }) := by decide
theorem test_display_samples_flag_register :
    next? (fun t => cellAt t.fb 10 0 && cellAt t.fb 13 0 && !cellAt t.fb 14 0 && t.reg 15 == 0)
      (run 0xDF21 { regs [(15, 10)] with index := 0x050 }) := by decide

-- L2.6, L1.12. The two readings of `withKey` are those of the timer and debounce phases.
theorem test_skipIfKey_high_bits : next? (fun t => t.pc == 0x202) (run 0xE39E (withKey 5 (regs [(3, 0x15)]))) := by
  decide
theorem test_skipIfKey : next? (fun t => t.pc == 0x204) (run 0xE39E (withKey 5 (regs [(3, 0x05)]))) := by decide
theorem test_skipIfNotKey_high_bits :
    next? (fun t => t.pc == 0x204) (run 0xE3A1 (withKey 5 (regs [(3, 0x15)]))) := by decide
theorem test_skipIfNotKey_no_key : next? (fun t => t.pc == 0x204) (run 0xE3A1 State.reset) := by decide
theorem test_getKey :
    next? (fun t => t.reg 2 == 0x0A && t.pc == 0x202) (run 0xF20A (withKey 0xA State.reset)) := by decide
theorem test_getKey_retries : next? (fun t => t.pc == 0x200) (run 0xF20A State.reset) := by decide
theorem test_readDelayTimer :
    next? (fun t => t.reg 6 == 0x2C) (run 0xF607 { State.reset with dt := 0x2C }) := by decide
/-- L2.6 row 8: no tick at the reading the set took. -/
theorem test_setDelayTimer :
    next? (fun t => t.dt == 10 && t.tRef == 5) (run 0xF115 (withReadings [5, 5, 5] (regs [(1, 10)]))) := by
  decide +kernel
/-- L2.6 row 9, first iteration. -/
theorem test_setBeapTimer :
    next? (fun t => t.st == 1 && t.out == [.playSound]) (run 0xF218 (withReadings [5, 5, 5] (regs [(2, 1)]))) := by
  decide +kernel
/-- L2.6 row 10: a late iteration takes one tick only. -/
theorem test_timer_one_tick :
    next? (fun t => t.dt == 4 && t.tRef == 1 / 60)
      (.next (timerPhase (withReadings [10 / 60] { State.reset with dt := 5 }))) := by
  decide +kernel

/-- The map of L2.6: `h` (1) is key 7, `j` (2) is key 3, any other code no key. -/
def sampleMap (h : HostKey) : Option Key := if h = 1 then some 7 else if h = 2 then some 3 else none

/-- L2.6 row 12. -/
theorem test_input_unmapped : (inputPhase sampleMap [.keyDown 9] State.reset).key = none := by decide
/-- L2.6 row 13: the later event wins. -/
theorem test_input_later_wins :
    (inputPhase sampleMap [.keyDown 1, .keyDown 2] State.reset).key = some 3 := by decide
/-- L2.6 row 14. -/
theorem test_input_quit :
    next? (fun t => t.key == some 7 && t.status == .halted && t.pc == 0x200)
      (iteration sampleMap { State.reset with
        draws := { State.reset.draws with events := [[.keyDown 1, .quit, .keyDown 2]] } }) := by decide
/-- L1.7, iterations 2 and 3: the latch is kept inside its window, and cleared when it is over. -/
theorem test_debounce :
    (debouncePhase (withReadings [1 / 120] (withKey 7 State.reset))).key = some 7 ∧
    (debouncePhase (withReadings [1 / 60] (withKey 7 State.reset))).key = none := by
  decide +kernel

-- L2.7
theorem test_unknown :
    next? (fun t => t.pc == 0x202 && t.out == [.diagnostic 0x200 0x0123]) (run 0x0123 State.reset) := by decide
theorem test_fetch_last_word : next? (fun t => t.pc == 0x1000) (step (quiet { State.reset with pc := 0xFFE })) := by decide
theorem test_fetch_fault :
    next? (fun t => faultedAt 0xFFF State.reset t && t.draws == State.reset.draws)
      (step (quiet { State.reset with pc := 0xFFF })) := by decide
theorem test_final_status : step { State.reset with status := .halted } = .fault .halted := rfl

/-- R255: the image lies at 0x200, and one byte too many starts nothing. -/
theorem test_boot :
    ((boot [0x00, 0xE0, 0x12, 0x02] 0).map fun s => memReadAll s.mem 0x1FF 6) =
      some [0x00, 0x00, 0xE0, 0x12, 0x02, 0x00] := by decide

/-! ## Witnesses: states and operands that meet the hypotheses of each statement -/

/-- The state after a step, or the state itself where there is none. -/
def after (s : State) : State :=
  match step s with
  | .next t => t
  | .fault _ => s
  | .refused _ => s

/-- A step that answers a next state answers `after`. -/
theorem step_after {s : State} (h : next? (fun _ => true) (step s) = true) : step s = .next (after s) := by
  unfold after
  cases e : step s <;> rw [e] at h <;> first | rfl | exact nomatch h

/-- The state after an instruction, or the state itself where there is none. -/
def afterExec (i : Instr) (s : State) : State :=
  match exec i s with
  | .next t => t
  | .fault _ => s
  | .refused _ => s

/-- An instruction answers `afterExec`: each answers a next state. -/
theorem exec_afterExec (i : Instr) (s : State) : exec i s = .next (afterExec i s) := by
  obtain ⟨t, h⟩ := exec_answers i s
  rw [afterExec, h]

/-- Reset with the word `w` to run, at 0x200. -/
def about (w : Nat) : State := State.reset.withFetchWord 16 w

theorem witness_BootLoadsImage :
    (List.replicate 3584 (0 : Byte)).length ≤ 3584 ∧ 3584 < (List.replicate 3585 (0 : Byte)).length ∧
    0 < [(0x00 : Byte), 0xE0].length :=
  ⟨List.length_replicate.le, List.length_replicate.ge.trans_lt' (by decide), by decide⟩
theorem witness_BootHasInvariant : ∃ s, (0 : Time) ≤ 0 ∧ boot [0x00, 0xE0] 0 = some s :=
  ⟨_, le_refl _, rfl⟩
theorem witness_DecodeEncode :
    Instr.clear.wellFormed = true ∧ (Instr.unknown 0xF075).wellFormed = true ∧
    (Instr.display 15 0 15).wellFormed = true := by decide
theorem witness_DecodeFollowsOpcodeMap :
    (∃ r ∈ opcodeMap, rowCovers r 0x00E0 = true) ∧ (∃ r ∈ opcodeMap, rowCovers r 0xFF65 = true) ∧
    isUnknownWord 0x0000 = true := by decide
theorem witness_FetchIsBigEndian :
    ({ State.reset with pc := 0xFFE } : State).pc.toNat + 1 < 4096 ∧ State.reset.pc.toNat + 1 < 4096 := by decide

/-- The hypotheses of StepRunsDecoded: an instruction that completes. -/
theorem witness_StepRunsDecoded : ∃ u, (about 0x653C).status = .running ∧ .quit ∉ (about 0x653C).nextEvents ∧
    (about 0x653C).pc.toNat + 1 < 4096 ∧
    decodeBytes [memRead (about 0x653C).mem (about 0x653C).pc.toNat,
      memRead (about 0x653C).mem ((about 0x653C).pc.toNat + 1)] = .ok (.setImm 5 0x3C, []) ∧
    exec (.setImm 5 0x3C) { inputPhase Config.keymap (about 0x653C).nextEvents (about 0x653C).dropEvents with
      pc := (about 0x653C).pc + 2 } = .next u ∧ u.status = .running :=
  ⟨_, rfl, by decide, by decide, rfl, exec_afterExec _ _, by decide⟩

/-- And one that faults: a CALL on a full stack. -/
def aboutFull : State := (stackOf 16).withFetchWord 16 0x230A
theorem witness_StepRunsDecoded_fault : ∃ u, aboutFull.status = .running ∧ .quit ∉ aboutFull.nextEvents ∧
    aboutFull.pc.toNat + 1 < 4096 ∧
    decodeBytes [memRead aboutFull.mem aboutFull.pc.toNat, memRead aboutFull.mem (aboutFull.pc.toNat + 1)] =
      .ok (.call 0x30A, []) ∧
    exec (.call 0x30A) { inputPhase Config.keymap aboutFull.nextEvents aboutFull.dropEvents with
      pc := aboutFull.pc + 2 } = .next u ∧ u.status ≠ .running :=
  ⟨_, rfl, by decide, by decide, by decide +kernel, exec_afterExec _ _, by decide +kernel⟩

/-- Reset with `pc = p`, and no events in the coming iteration. -/
def atPc (p : Word) : State := quiet { State.reset with pc := p }
theorem witness_FetchFault :
    ((atPc 0xFFF).status = .running ∧ .quit ∉ (atPc 0xFFF).nextEvents ∧ 4096 ≤ (atPc 0xFFF).pc.toNat + 1) ∧
    ((atPc 0x1000).status = .running ∧ .quit ∉ (atPc 0x1000).nextEvents ∧
      4096 ≤ (atPc 0x1000).pc.toNat + 1) := by
  simp [atPc, quiet, State.nextEvents, State.reset]

/-- Reset with one event list to come. -/
def withEvents (es : List HostEvent) : State :=
  { State.reset with draws := { State.reset.draws with events := [es] } }
theorem witness_QuitHalts : (withEvents [.keyDown 1, .quit, .other]).status = .running ∧
    .quit ∉ [HostEvent.keyDown 1] ∧
    (withEvents [.keyDown 1, .quit, .other]).nextEvents =
      [HostEvent.keyDown 1] ++ HostEvent.quit :: [HostEvent.other] := by
  simp [withEvents, State.nextEvents, State.reset]
theorem witness_KeyDownLatches :
    .quit ∉ [HostEvent.keyDown 2, .other] ∧ sampleMap 1 = some 7 ∧ sampleMap 9 = none := by decide
/-- And its reading: after an earlier key-down took the first, the next one is at the clock itself. -/
theorem witness_KeyDownLatches_reading :
    (inputPhase sampleMap [.keyDown 2] (withReadings [1, 1] State.reset)).draws.readings = 1 :: [] ∧
    (inputPhase sampleMap [.keyDown 2] (withReadings [1, 1] State.reset)).clock ≤ 1 := by decide +kernel
theorem witness_FinalStatusStops :
    ({ State.reset with status := .halted } : State).status ≠ .running ∧
    ({ State.reset with status := .faulted .stackOverflow } : State).status ≠ .running := by decide

/-- The reading of TimerPhaseTicks and DebounceClears, at the clock itself and above it. -/
theorem witness_TimerPhaseTicks_DebounceClears_reading :
    (withReadings [0, 1] State.reset).draws.readings = 0 :: [1] ∧ (withReadings [0, 1] State.reset).clock ≤ 0 ∧
    (withReadings [1 / 60] State.reset).draws.readings = (1 / 60) :: [] ∧
    (withReadings [1 / 60] State.reset).clock ≤ 1 / 60 := by decide +kernel
/-- Both clauses of TimerPhaseTicks, the first at the very instant a tick is due, and both cases of a timer. -/
theorem witness_TimerPhaseTicks :
    1 / 60 ≤ (timerPhase (withReadings [1 / 60] State.reset)).clock - (withReadings [1 / 60] State.reset).tRef ∧
    (timerPhase (withReadings [1 / 61] State.reset)).clock - (withReadings [1 / 61] State.reset).tRef < 1 / 60 ∧
    0 < ({ State.reset with dt := 1, st := 1 } : State).dt.toNat ∧ State.reset.dt.toNat = 0 := by
  decide +kernel
theorem witness_SoundPhaseSignals :
    0 < ({ State.reset with st := 1 } : State).st.toNat ∧ State.reset.st.toNat = 0 := by decide
theorem witness_DebounceClears :
    1 / 60 ≤ (debouncePhase (withReadings [1 / 60] State.reset)).clock - (withReadings [1 / 60] State.reset).keyRef ∧
    (debouncePhase (withReadings [1 / 61] State.reset)).clock - (withReadings [1 / 61] State.reset).keyRef < 1 / 60 := by
  decide +kernel

theorem witness_ReturnPops : (stackOf 1).stack = [] ++ [0x206] ∧ (stackOf 0).stack = [] := by decide
theorem witness_CallPushesOrOverflows : (stackOf 15).stack.length < 16 ∧ (stackOf 16).stack.length = 16 := by decide

/-- A CALL that stands at 0x204, and then a RETURN at its target. -/
def callState : State := (stackOf 0).withFetchWord 16 0x230A
def returnState : State := (after callState).withFetchWord 16 0x00EE
theorem witness_CallReturnLaw : ∃ t v w1 w2, callState.stack.length < 16 ∧ step callState = .next t ∧
    .quit ∉ callState.nextEvents ∧ fetch callState = .ok w1 ∧ decodeWord w1 = .call 0x30A ∧
    returnState.stack = t.stack ∧ step returnState = .next v ∧ .quit ∉ returnState.nextEvents ∧
    fetch returnState = .ok w2 ∧ decodeWord w2 = .ret :=
  ⟨_, _, 0x230A, 0x00EE, by decide, step_after (by decide), by decide, rfl, rfl, rfl,
    step_after (by decide), by decide, rfl, rfl⟩

theorem witness_RandomMasksDraw :
    ({ State.reset with draws := { State.reset.draws with randoms := [0xA7] } } : State).draws.randoms = 0xA7 :: [] := rfl

/-- Reset with `I = i`. -/
def atIndex (i : Word) : State := { State.reset with index := i }
theorem witness_BcdStoresDigits : (atIndex 0xFFD).mem.wf ∧ (atIndex 0xFFD).index.toNat + 2 < 4096 := by
  exact ⟨wf_nil, by decide⟩
theorem witness_StoreWritesRegisters :
    (atIndex 0xFFE).mem.wf ∧ (atIndex 0xFFE).index.toNat + (1 : Reg).val < 4096 := ⟨wf_nil, by decide⟩
theorem witness_LoadReadsRegisters : (atIndex 0xFF0).index.toNat + (15 : Reg).val < 4096 := by decide
theorem witness_TransferFaults :
    4096 ≤ (atIndex 0xFFE).index.toNat + 2 ∧ 4096 ≤ (atIndex 0xFFE).index.toNat + (2 : Reg).val ∧
    4096 ≤ (atIndex 0xFF1).index.toNat + (15 : Reg).val := by decide
theorem witness_StoreThenFetch : (atIndex 0xFFE).mem.wf ∧ (atIndex 0xFFE).index.toNat + (1 : Reg).val < 4096 ∧
    (1 : Reg).val = (0 : Reg).val + 1 ∧ (1 : Reg) ≤ 1 := ⟨wf_nil, by decide, by decide, by decide⟩

/-- DisplayDraws at `I = 0xFFE`: two rows at the top of memory, and none at all. -/
theorem witness_DisplayDraws :
    (let s := { atIndex 0xFFE with v := (regs [(2, 30)]).v }
     s.index.toNat + min (5 : Nibble).toNat (32 - (s.reg 2).toNat % 32) ≤ 4096) ∧
    min (0 : Nibble).toNat (32 - ((atIndex 0xFFF).reg 2).toNat % 32) = 0 := by decide
theorem witness_DisplayFaults :
    0 < min (3 : Nibble).toNat (32 - ((atIndex 0xFFE).reg 2).toNat % 32) ∧
    4096 < (atIndex 0xFFE).index.toNat + min (3 : Nibble).toNat (32 - ((atIndex 0xFFE).reg 2).toNat % 32) := by decide
/-- And inside both draws, covered cells that were off and, over the blank screen, none that was on. -/
theorem witness_DrawTwiceRestores : ∃ t u, exec (.display 1 2 5) (atIndex 0x082) = .next t ∧
    t.status = (atIndex 0x082).status ∧ (atIndex 0x082).status = .running ∧
    t.reg 1 = (atIndex 0x082).reg 1 ∧ t.reg 2 = (atIndex 0x082).reg 2 ∧ t.index = (atIndex 0x082).index ∧
    t.mem = (atIndex 0x082).mem ∧ t.fb = t.fb ∧ exec (.display 1 2 5) t = .next u ∧
    spriteCovers (atIndex 0x082) 1 2 5 0 0 = true :=
  ⟨_, _, rfl, rfl, rfl, rfl, rfl, rfl, rfl, rfl, rfl, rfl⟩

theorem witness_KeySkips_GetKeyTakesOrRetries :
    (withKey 0xF State.reset).pressed = true ∧ (withKey 0xF State.reset).key = some 0xF ∧
    State.reset.pressed = false := by decide
theorem witness_TimerSets :
    (withReadings [5] State.reset).draws.readings = 5 :: [] ∧ (withReadings [5] State.reset).clock ≤ 5 := by
  decide +kernel

/-- A state with the invariant that is not the reset state: in a subroutine, with a key held. -/
def midRun : State :=
  { withKey 7 (quiet (stackOf 1)) with index := 0xFFF, dt := 3, mem := [(0x300, 1), (0xFFF, 2)] }
theorem witness_StepKeepsInvariant : ∃ t, midRun.Inv ∧ step midRun = .next t := by
  refine ⟨after midRun, ⟨by decide, by decide, by decide,
    by simp [midRun, withKey, quiet, stackOf], by decide, ?_, ?_, ?_, ?_, ?_⟩,
    step_after (by decide +kernel)⟩
  · exact ⟨by decide, by decide⟩
  all_goals exact le_refl (0 : Time)
theorem witness_FaultsArePrecise : ∃ t, (stackOf 16).status = .running ∧
    exec (.call 0x30A) (stackOf 16) = .next t ∧ t.status = .faulted .stackOverflow :=
  ⟨_, rfl, rfl, rfl⟩
/-- A listed event list, and none. -/
theorem witness_StepUsesOneEventList :
    (∃ t, step (quiet State.reset) = .next t ∧ (quiet State.reset).draws.events = [] :: []) ∧
    ∃ t, step State.reset = .next t ∧ State.reset.draws.events = [] :=
  ⟨⟨_, step_after (by decide), rfl⟩, (step_answers rfl).imp fun _ h => ⟨h, rfl⟩⟩
theorem witness_WhoMayFault : State.reset.status = .running := rfl
/-- A destination (SET_IMM V5), and the flag alone (ADD of VF and VF into V1). -/
theorem witness_RegisterWriters :
    (∃ t, step (about 0x653C) = .next t ∧ t.reg 5 ≠ (about 0x653C).reg 5) ∧
    (∃ t, step ((regs [(1, 0xFF), (2, 0x01)]).withFetchWord 16 0x8124) = .next t ∧
      t.reg 15 ≠ ((regs [(1, 0xFF), (2, 0x01)]).withFetchWord 16 0x8124).reg 15) :=
  ⟨⟨_, step_after (by decide), by decide⟩, ⟨_, step_after (by decide), by decide⟩⟩
theorem witness_IndexWriters : ∃ t, step (about 0xA300) = .next t ∧ t.index ≠ (about 0xA300).index :=
  ⟨_, step_after (by decide), by decide⟩
theorem witness_StackWriters :
    (∃ t, step (about 0x230A) = .next t ∧ t.stack ≠ (about 0x230A).stack) ∧
    (∃ t, step ((stackOf 1).withFetchWord 16 0x00EE) = .next t ∧
      t.stack ≠ ((stackOf 1).withFetchWord 16 0x00EE).stack) :=
  ⟨⟨_, step_after (by decide), by decide⟩, ⟨_, step_after (by decide), by decide⟩⟩
/-- STORE V1 with `I = 0x300` and V1 = 2 changes the byte at 0x301. -/
def storing : State := { regs [(1, 2)] with index := 0x300 }
theorem witness_MemoryWriters : ∃ t, (storing.withFetchWord 16 0xF155).mem.wf ∧
    step (storing.withFetchWord 16 0xF155) = .next t ∧
    memRead t.mem 0x301 ≠ memRead (storing.withFetchWord 16 0xF155).mem 0x301 :=
  ⟨_, wf_memWriteAll _ wf_nil (by decide), step_after (by decide), by decide⟩
theorem witness_FramebufferWriters : ∃ t,
    step ((atIndex 0x050).withFetchWord 16 0xD001) = .next t ∧
    t.fb ≠ ((atIndex 0x050).withFetchWord 16 0xD001).fb :=
  ⟨_, step_after (by decide), fun h => by
    have := congrArg (fun fb => cellAt fb 0 0) h
    revert this; decide⟩
theorem witness_LatchIsReadOnly : ∃ t, exec (.getKey 2) (withKey 0xA State.reset) = .next t := ⟨_, rfl⟩
theorem witness_TraceIsAppended_ClockNeverRunsBack : ∃ t, step (about 0x00E0) = .next t :=
  ⟨_, step_after (by decide)⟩
theorem witness_TimersMoveByTicks : ∃ t, step (about 0x1200) = .next t ∧
    ∀ w, fetch (about 0x1200) = .ok w → setsTimer (decodeWord w) = false :=
  ⟨_, step_after (by decide), fun w h => by
    have h : (0x1200 : Word) = w := Except.ok.inj h
    subst h; decide⟩
/-- JUMP to itself with `DT = ST = 1`, the readings at the very tick: both timers reach 0. -/
def ticking : State := withReadings [1 / 60, 1 / 60] { about 0x1200 with dt := 1, st := 1 }
theorem witness_TimersNeverEarly : ∃ t, UnsetRun ticking t ∧ 0 < ticking.dt.toNat ∧ t.dt.toNat = 0 ∧
    0 < ticking.st.toNat ∧ t.st.toNat = 0 :=
  ⟨after ticking, .next (.done _) (step_after (by decide +kernel)) (fun w h => by
      have h : (0x1200 : Word) = w := Except.ok.inj h
      subst h; decide),
    by decide, by decide +kernel, by decide, by decide +kernel⟩

end Sys2Proof.Tests
end

section
/-!
SUPPORT. What each instruction may write, said once (spec/10_state.md R22 to R40), and the settled statements
about who writes which piece of state.
-/
namespace Sys2Proof.Machine

/-! ## What an instruction may write -/

/-- The instruction may write `Vr`: as its destination, or VF as a flag (spec/10_state.md R22, R37). -/
def MayWriteReg (i : Instr) (r : Reg) : Prop :=
  writesDest i r = true ∨ (r = 15 ∧ writesFlag i = true)

/-- From `s` to `t` only registers the instruction may write differ. -/
def OnlyNamedRegs (i : Instr) (s t : State) : Prop :=
  ∀ r, t.reg r ≠ s.reg r → MayWriteReg i r

/-- The instructions that write `I` (spec/10_state.md R24). -/
def WritesIndex (i : Instr) : Prop :=
  (∃ nnn, i = .setIndex nnn) ∨ (∃ x, i = .addIndex x) ∨ ∃ x, i = .font x

/-- What running an instruction from `s` can leave behind: one constructor for each set of fields that is
written together, everything else as in `s`. -/
inductive InstrEffect (s : State) : Instr → State → Prop where
  /-- A fault (spec/60_exceptions.md R214). -/
  | fault (i r) : InstrEffect s i { s with status := .faulted r, pc := s.pc - 2 }
  /-- `pc` at most: jumps, skips, the retry of GET_KEY, RETURN on an empty stack. -/
  | goto (i p) : InstrEffect s i { s with pc := p }
  | call (nnn p) : InstrEffect s (.call nnn) { s with pc := p, stack := s.stack ++ [s.pc] }
  | ret (p) : InstrEffect s .ret { s with pc := p, stack := s.stack.dropLast }
  | registers (i v draws) (only : OnlyNamedRegs i s { s with v := v }) :
      InstrEffect s i { s with v := v, draws := draws }
  | index (i v a) (writes : WritesIndex i) (only : OnlyNamedRegs i s { s with v := v }) :
      InstrEffect s i { s with v := v, index := a }
  | memory (i bs) (len : bs.length = bytesWritten i) :
      InstrEffect s i { s with mem := memWriteAll s.mem s.index.toNat bs }
  | clear : InstrEffect s .clear { s with fb := blankFramebuffer, out := s.out ++ [.cleared] }
  | display (x y n v fb) (only : OnlyNamedRegs (.display x y n) s { s with v := v }) :
      InstrEffect s (.display x y n) { s with v := v, fb := fb }
  | timers (i dt st tRef clock draws) (sets : setsTimer i = true) :
      InstrEffect s i { s with dt := dt, st := st, tRef := tRef, clock := clock, draws := draws }
  | report (w e) : InstrEffect s (.unknown w) { s with out := s.out ++ [e] }

section
variable {i : Instr} {s t : State}

theorem onlyNamedRegs_of_eq (h : t.v = s.v) : OnlyNamedRegs i s t :=
  fun r hr => absurd (reg_congr h r) hr

theorem onlyNamedRegs_setReg {x : Reg} (hx : writesDest i x = true) (b : Byte) :
    OnlyNamedRegs i s (s.setReg x b) := by
  intro r hr
  rw [reg_setReg] at hr
  by_cases h : r = x
  · exact .inl (h ▸ hx)
  · exact absurd (if_neg h) hr

theorem onlyNamedRegs_setFlag (hi : writesFlag i = true) (f : Bool) :
    OnlyNamedRegs i s (s.setFlag f) := by
  intro r hr
  rw [reg_setFlag] at hr
  by_cases h : r = flagReg
  · exact .inr ⟨h, hi⟩
  · exact absurd (if_neg h) hr

theorem onlyNamedRegs_setRegFlag {x : Reg} (hx : writesDest i x = true) (hi : writesFlag i = true)
    (b : Byte) (f : Bool) : OnlyNamedRegs i s (s.setRegFlag x b f) := by
  intro r hr
  by_cases h : (s.setReg x b).reg r = s.reg r
  · exact onlyNamedRegs_setFlag hi f r (h ▸ hr)
  · exact onlyNamedRegs_setReg hx b r h

/-- LOAD of `x + 1` bytes writes no register above `Vx` (spec/42_index_memory.md R155). -/
theorem onlyNamedRegs_load {x : Reg} {bs : List Byte} (hlen : bs.length = x.val + 1) :
    OnlyNamedRegs (.load x) s { s with v := loadRegs s.v 0 bs } := by
  intro r hr
  refine .inl (decide_eq_true (Fin.le_def.mpr (Nat.le_of_not_lt fun hlt => hr ?_)))
  have hnone : bs[r.val - 0]? = none := List.getElem?_eq_none (by omega)
  change (loadRegs s.v 0 bs)[r.val] = s.reg r
  rw [loadRegs_get, if_pos (Nat.zero_le _), hnone]
  rfl

/-! ### The effects of the shared operations -/

theorem setReg_effect {x : Reg} (hx : writesDest i x = true) (b : Byte) :
    InstrEffect s i (s.setReg x b) :=
  .registers i _ s.draws (onlyNamedRegs_setReg hx b)

theorem setRegFlag_effect {x : Reg} (hx : writesDest i x = true) (hi : writesFlag i = true)
    (b : Byte) (f : Bool) : InstrEffect s i (s.setRegFlag x b f) :=
  .registers i _ s.draws (onlyNamedRegs_setRegFlag hx hi b f)

/-- A timer set takes a reading and writes a timer and `t_ref` (spec/44_keypad_timers.md R195, R196). -/
theorem setTimer_effect (sets : setsTimer i = true) (dt st : Byte) :
    InstrEffect s i { s.readClock with dt := dt, st := st, tRef := s.readClock.clock } := by
  rw [readClock_frame]
  exact .timers _ _ _ _ _ _ sets

theorem skipIf_effect {c : Bool} (h : skipIf c s = .next t) : InstrEffect s i t := by
  rw [skipIf_eq] at h
  obtain rfl := Host.Outcome.next.inj h
  exact .goto ..

/-- A block write that answers memory wrote its bytes from the base up (spec/20_memory.md R53). -/
theorem writeBlock_ok {m m' : Memory} {base : Nat} {bs : List Byte} (h : writeBlock m base bs = .ok m') :
    m' = memWriteAll m base bs := by
  obtain ⟨-, hb⟩ | ⟨-, hb⟩ := writeBlock_cases m base bs <;> rw [hb] at h
  · exact (Except.ok.inj h).symm
  · cases h

/-- A block read that answers bytes answers as many as were asked for (spec/20_memory.md R52). -/
theorem readBlock_ok_length {m : Memory} {base n : Nat} {bs : List Byte} (h : readBlock m base n = .ok bs) :
    bs.length = n := by
  obtain ⟨-, hb⟩ | ⟨-, hb⟩ := readBlock_cases m base n <;> rw [hb] at h
  · exact Except.ok.inj h ▸ memReadAll_length m base n
  · cases h

/-! ### The instructions that draw, or can end in more than one way -/

theorem execRet_effect (h : execRet s = .next t) : InstrEffect s .ret t := by
  unfold execRet at h
  split at h <;> obtain rfl := Host.Outcome.next.inj h
  · exact .goto _ s.pc
  · exact .ret _

theorem execCall_effect {nnn : Addr12} (h : execCall nnn s = .next t) : InstrEffect s (.call nnn) t := by
  unfold execCall at h
  split at h <;> obtain rfl := Host.Outcome.next.inj h
  · exact .fault ..
  · exact .call ..

theorem execGetKey_effect {x : Reg} (h : execGetKey x s = .next t) : InstrEffect s (.getKey x) t := by
  unfold execGetKey at h
  split at h <;> obtain rfl := Host.Outcome.next.inj h
  · exact setReg_effect (by simp [writesDest]) _
  · exact .goto ..

theorem execDisplay_effect {x y : Reg} {n : Nibble} (h : execDisplay x y n s = .next t) :
    InstrEffect s (.display x y n) t := by
  unfold execDisplay at h
  split at h <;> obtain rfl := Host.Outcome.next.inj h
  · exact .display _ _ _ _ _ (onlyNamedRegs_setFlag rfl _)
  · exact .fault ..

theorem execLoad_effect {x : Reg} (h : execLoad x s = .next t) : InstrEffect s (.load x) t := by
  unfold execLoad at h
  split at h <;> obtain rfl := Host.Outcome.next.inj h
  next hb => exact .registers _ _ s.draws (onlyNamedRegs_load (readBlock_ok_length hb))
  next => exact .fault ..

theorem execStore_effect {x : Reg} (h : execStore x s = .next t) : InstrEffect s (.store x) t := by
  unfold execStore at h
  split at h <;> obtain rfl := Host.Outcome.next.inj h
  next hb => exact writeBlock_ok hb ▸ .memory _ _ (regsUpTo_length s x)
  next => exact .fault ..

theorem execBinaryCodedDecimal_effect {x : Reg} (h : execBinaryCodedDecimal x s = .next t) :
    InstrEffect s (.binaryCodedDecimal x) t := by
  unfold execBinaryCodedDecimal at h
  split at h <;> obtain rfl := Host.Outcome.next.inj h
  next hb => exact writeBlock_ok hb ▸ .memory _ _ rfl
  next => exact .fault ..

theorem execRandom_effect {x : Reg} {nn : Byte} (h : execRandom x nn s = .next t) :
    InstrEffect s (.random x nn) t := by
  unfold execRandom at h
  rw [dropRandom_frame] at h
  obtain rfl := Host.Outcome.next.inj h
  exact .registers _ _ _ (onlyNamedRegs_setReg (by simp [writesDest]) _)

end

/-- Every instruction has one of the effects listed. -/
theorem exec_effect {i : Instr} {s t : State} (h : exec i s = .next t) : InstrEffect s i t := by
  cases i
  case skipEqImm | skipNeImm | skipEqReg | skipNeReg | skipIfKey | skipIfNotKey => exact skipIf_effect h
  case ret => exact execRet_effect h
  case call => exact execCall_effect h
  case getKey => exact execGetKey_effect h
  case display => exact execDisplay_effect h
  case load => exact execLoad_effect h
  case random => exact execRandom_effect h
  case binaryCodedDecimal => exact execBinaryCodedDecimal_effect h
  case store => exact execStore_effect h
  all_goals obtain rfl := Host.Outcome.next.inj h
  case jump | jumpOffset => exact .goto ..
  case setImm | addImm | setReg | or | and | xor | readDelayTimer =>
    exact setReg_effect (by simp [writesDest]) _
  case add | subtract | rshift | isubtract | lshift =>
    exact setRegFlag_effect (by simp [writesDest]) rfl _ _
  case setIndex nnn => exact .index _ s.v _ (.inl ⟨nnn, rfl⟩) (onlyNamedRegs_of_eq rfl)
  case addIndex x => exact .index _ _ _ (.inr (.inl ⟨x, rfl⟩)) (onlyNamedRegs_setFlag rfl _)
  case font x => exact .index _ s.v _ (.inr (.inr ⟨x, rfl⟩)) (onlyNamedRegs_of_eq rfl)
  case setDelayTimer x => simpa using setTimer_effect (s := s) (i := .setDelayTimer x) rfl (s.reg x) s.st
  case setBeapTimer x => simpa using setTimer_effect (s := s) (i := .setBeapTimer x) rfl s.dt (s.reg x)
  case clear => exact .clear
  case unknown => exact .report ..

/-! ### The effect on each piece of state -/

namespace InstrEffect

variable {i : Instr} {s t : State}

theorem onlyNamedRegs (h : InstrEffect s i t) : OnlyNamedRegs i s t := by
  cases h with
  | registers _ _ _ only => exact only
  | index _ _ _ _ only => exact only
  | display _ _ _ _ _ only => exact only
  | fault | goto | call | ret | memory | clear | timers | report => exact onlyNamedRegs_of_eq rfl

theorem index_writer (h : InstrEffect s i t) (hne : t.index ≠ s.index) : WritesIndex i := by
  cases h with
  | index _ _ _ writes _ => exact writes
  | fault | goto | call | ret | registers | memory | clear | display | timers | report =>
    exact absurd rfl hne

theorem stack_writer (h : InstrEffect s i t) (hne : t.stack ≠ s.stack) :
    ((∃ nnn, i = .call nnn) ∧ t.stack = s.stack ++ [s.pc]) ∨ (i = .ret ∧ t.stack = s.stack.dropLast) := by
  cases h with
  | call nnn _ => exact .inl ⟨⟨nnn, rfl⟩, rfl⟩
  | ret _ => exact .inr ⟨rfl, rfl⟩
  | fault | goto | registers | index | memory | clear | display | timers | report =>
    exact absurd rfl hne

theorem latch (h : InstrEffect s i t) : t.key = s.key ∧ t.pressed = s.pressed ∧ t.keyRef = s.keyRef := by
  cases h <;> exact ⟨rfl, rfl, rfl⟩

theorem out_appended (h : InstrEffect s i t) :
    ∃ more : List OutEvent, t.out = s.out ++ more ∧ more.length ≤ 1 := by
  cases h with
  | clear => exact ⟨_, rfl, le_rfl⟩
  | report _ e => exact ⟨[e], rfl, le_rfl⟩
  | fault | goto | call | ret | registers | index | memory | display | timers =>
    exact ⟨[], (List.append_nil _).symm, Nat.zero_le 1⟩

end InstrEffect

/-! ## What a step may write outside its instruction -/

/-- The pieces of state that no phase before the instruction writes are equal. -/
structure SamePieces (s t : State) : Prop where
  v : t.v = s.v
  index : t.index = s.index
  stack : t.stack = s.stack
  mem : t.mem = s.mem
  fb : t.fb = s.fb
  out : t.out = s.out

theorem inputPhase_samePieces (keymap : HostKey → Option Key) (es : List HostEvent) (s : State) :
    SamePieces s (inputPhase keymap es s.dropEvents) := by
  constructor <;> simp

/-- A step writes none of these pieces, or it runs the fetched instruction on them and then the later
phases (spec/60_exceptions.md R230). -/
theorem step_effect {s s' : State} (h : step s = .next s') :
    SamePieces s s' ∨
      ∃ w u t, fetch s = .ok w ∧ SamePieces s u ∧ u.pc = s.pc + 2 ∧
        InstrEffect u (decodeWord w) t ∧ s' = finishIteration t := by
  have same := inputPhase_samePieces Config.keymap s.nextEvents s
  obtain ⟨-, ⟨-, rfl⟩ | ⟨-, r, -, rfl⟩ | ⟨-, w, t, hf, hx, rfl⟩⟩ := step_next_cases h
  · exact .inl same
  · exact .inl { same with }
  · refine .inr ⟨w, _, t, hf, ?_, ?_, exec_effect hx, rfl⟩
    · exact { same with }
    · rfl

/-- The phases after the instruction append at most the `PlaySound` of the sound phase (R234). -/
theorem finishIteration_out (s : State) :
    ∃ more : List OutEvent, (finishIteration s).out = s.out ++ more ∧ more.length ≤ 1 := by
  by_cases hs : s.status = .running
  · rw [finishIteration_running hs, debouncePhase_out, soundPhase]
    split
    · exact ⟨[], by simp, Nat.zero_le 1⟩
    · exact ⟨[.playSound], by simp [State.emit], le_rfl⟩
  · exact ⟨[], by simp [finishIteration_stopped hs], Nat.zero_le 1⟩

/-! ## The statements -/

/-- Settles O50: a step that changes `Vr` ran an instruction, and that changes only registers it names. -/
theorem registerWriters : Obligations.RegisterWriters := by
  intro s s' r h hne
  obtain same | ⟨w, u, t, hf, same, -, effect, rfl⟩ := step_effect h
  · exact absurd (reg_congr same.v r) hne
  · rw [reg_congr (finishIteration_v t), ← reg_congr same.v] at hne
    exact ⟨w, hf, effect.onlyNamedRegs r hne⟩

/-- Settles O51. -/
theorem indexWriters : Obligations.IndexWriters := by
  intro s s' h hne
  obtain same | ⟨w, u, t, hf, same, -, effect, rfl⟩ := step_effect h
  · exact absurd same.index hne
  · rw [finishIteration_index, ← same.index] at hne
    exact ⟨w, hf, effect.index_writer hne⟩

/-- Settles O52: CALL pushes the `pc` the fetch has moved on, which is the step's `pc + 2`. -/
theorem stackWriters : Obligations.StackWriters := by
  intro s s' h hne
  obtain same | ⟨w, u, t, hf, same, hpc, effect, rfl⟩ := step_effect h
  · exact absurd same.stack hne
  · rw [finishIteration_stack] at hne ⊢
    rw [← same.stack, ← hpc]
    exact ⟨w, hf, effect.stack_writer (same.stack ▸ hne)⟩

/-- Settles O55. -/
theorem latchIsReadOnly : Obligations.LatchIsReadOnly :=
  fun _ _ _ h => (exec_effect h).latch

/-- Settles O56: one event of the instruction and one of the phases after it. -/
theorem traceIsAppended : Obligations.TraceIsAppended := by
  intro s s' h
  obtain same | ⟨w, u, t, -, same, -, effect, rfl⟩ := step_effect h
  · exact ⟨[], by rw [same.out, List.append_nil], Nat.zero_le 2⟩
  · obtain ⟨more, ht, hmore⟩ := effect.out_appended
    obtain ⟨last, hlast, hle⟩ := finishIteration_out t
    refine ⟨more ++ last, by rw [hlast, ht, same.out, List.append_assoc], ?_⟩
    rw [List.length_append]
    omega

/-- Settles O14: a step that answers a next state ran in status `Running`. -/
theorem finalStatusStops : Obligations.FinalStatusStops :=
  fun _ hs _ h => hs (step_next_cases h).1

/-! ### Reset -/

theorem reg_reset (r : Reg) : State.reset.reg r = 0 := by
  simp [State.reg, State.reset]

/-- After reset with the empty image a byte is 0 outside the font (spec/10_state.md R39, R41). -/
theorem resetByte_outside_font {a : Nat} (h : a < 0x050 ∨ 0x0A0 ≤ a) : resetByte a = 0 := by
  have hlen : Config.fontData.length = 80 := rfl
  unfold resetByte Config.fontOffset
  obtain h | h := h
  · exact if_neg (Nat.not_le.mpr h)
  · rw [if_pos (by omega), List.getElem?_eq_none (by omega)]
    rfl

/-- Settles O1. -/
theorem resetState : Obligations.ResetState :=
  ⟨reg_reset, rfl, rfl, rfl, rfl, rfl, rfl, rfl, rfl, rfl, cellAt_blank, rfl, rfl, by decide,
    fun _ => resetByte_outside_font⟩

end Sys2Proof.Machine
end

section
/-!
SUPPORT. What block writes leave alone and what the next fetch reads of them (spec/20_memory.md R51 to R62), and
the settled statements of that family.
-/
namespace Sys2Proof.Machine

/-! ## Reads outside a write -/

/-- A write changes no other address's byte, even in memory that is not canonical (spec/20_memory.md R53). -/
theorem memRead_memWrite_of_ne {a q : Nat} (hq : q ≠ a) (b : Byte) (m : Memory) :
    memRead (memWrite m a b) q = memRead m q := by
  induction m with
  | nil =>
    unfold memWrite
    split
    · rfl
    · simp [memRead, hq.symm]
  | cons c m ih =>
    unfold memWrite
    split_ifs with hlt he hb
    · rw [memRead, ih, memRead]
    · rw [memRead, if_neg fun h => hq (h.symm.trans he)]
    · simp [memRead, he, hq.symm]
    · rfl
    · simp [memRead, hq.symm]

/-- A block write changes no byte outside its block. -/
theorem memRead_memWriteAll_outside {q : Nat} (bs : List Byte) :
    ∀ (m : Memory) {base : Nat} (_ : q < base ∨ base + bs.length ≤ q),
      memRead (memWriteAll m base bs) q = memRead m q := by
  induction bs with
  | nil => exact fun _ _ _ => rfl
  | cons b bs ih =>
    intro m base h
    rw [List.length_cons] at h
    rw [memWriteAll, ih _ (by omega), memRead_memWrite_of_ne (by omega)]

/-- An instruction changes a byte only in the block it writes at `I` and up (spec/20_memory.md R51). -/
theorem InstrEffect.mem_writer {i : Instr} {s t : State} {a : Nat} (h : InstrEffect s i t)
    (hne : memRead t.mem a ≠ memRead s.mem a) :
    s.index.toNat ≤ a ∧ a < s.index.toNat + bytesWritten i := by
  cases h with
  | memory _ bs len =>
    by_contra hout
    exact hne (memRead_memWriteAll_outside bs s.mem (by omega))
  | fault | goto | call | ret | registers | index | clear | display | timers | report =>
    exact absurd rfl hne

/-! ## STORE, and the fetch of what it wrote -/

/-- STORE within memory completes with its registers' bytes at `I` and up (spec/42_index_memory.md R154). -/
theorem exec_store_in_range {s : State} {x : Reg} (h : s.index.toNat + x.val < Config.memSize) :
    exec (.store x) s = .next { s with mem := memWriteAll s.mem s.index.toNat (s.regsUpTo x) } := by
  obtain ⟨-, hw⟩ | ⟨hout, -⟩ := writeBlock_cases s.mem (baseAddress s.index) (s.regsUpTo x)
  · rw [exec, execStore, hw]
    rfl
  · rw [regsUpTo_length] at hout
    exact absurd (.inr h) hout

/-- The byte at `I + r` after STORE `Vx` is `Vr`, for `r` up to `x`. -/
theorem memRead_stored {s : State} {x r : Reg} (hm : s.mem.wf) (h : s.index.toNat + x.val < Config.memSize)
    (hr : r ≤ x) :
    memRead (memWriteAll s.mem s.index.toNat (s.regsUpTo x)) (s.index.toNat + r.val) = s.reg r := by
  have hlen : s.index.toNat + (s.regsUpTo x).length ≤ Config.memSize := by
    rw [regsUpTo_length]
    exact h
  rw [memRead_memWriteAll _ hm hlen, if_pos (Nat.le_add_right _ _), Nat.add_sub_cancel_left,
    regsUpTo_get s x r hr]
  rfl

/-- Where both bytes are in memory the fetch answers their word (spec/30_encoding.md R71). -/
theorem fetch_in_range {s : State} (h : s.pc.toNat + 1 < Config.memSize) :
    fetch s = .ok (wordOfBytes (memRead s.mem s.pc.toNat) (memRead s.mem (s.pc.toNat + 1))) := by
  obtain ⟨-, hf⟩ | ⟨hout, -⟩ := fetch_cases s
  · exact hf
  · exact absurd h (Nat.not_lt.mpr hout)

/-! ## The statements -/

/-- Settles O53: only the instruction of a step writes memory, and that only in its own block. -/
theorem memoryWriters : Obligations.MemoryWriters := by
  intro s s' a _ h hne
  obtain same | ⟨w, u, t, hf, same, -, effect, rfl⟩ := step_effect h
  · exact absurd (congrArg (memRead · a) same.mem) hne
  · rw [finishIteration_mem, ← same.mem] at hne
    rw [← same.index]
    exact ⟨w, hf, effect.mem_writer hne⟩

/-- Settles O37: the fetch address `I + r` does not wrap, so the two bytes fetched are those stored for `Vr` and
its successor. -/
theorem storeThenFetch : Obligations.StoreThenFetch := by
  intro s r q x hm hx hq hqx
  have hr : r ≤ x := Fin.le_def.mpr (by have := Fin.le_def.mp hqx; omega)
  have hpc : (s.index + BitVec.ofNat 16 r.val).toNat = s.index.toNat + r.val := by
    rw [BitVec.toNat_add, BitVec.toNat_ofNat]
    omega
  have hnext : s.index.toNat + r.val + 1 = s.index.toNat + q.val := by omega
  refine ⟨_, _, exec_store_in_range hx, fetch_in_range ?_, ?_⟩
  · change (s.index + BitVec.ofNat 16 r.val).toNat + 1 < 4096
    have := Fin.le_def.mp hqx
    omega
  · rw [wordOfBytes_toNat, hpc, hnext, memRead_stored hm hx hr, memRead_stored hm hx hqx]
    omega

end Sys2Proof.Machine
end

section
/-!
SUPPORT. The decoder against the opcode map and the encoder (spec/30_encoding.md R70 to R84), the step in terms of the
word it fetches (R75), and the settled statements of that family.
-/
namespace Sys2Proof

/-! ## The category a word decodes to -/

/-- Family 0x0 reads the low byte only for its category (spec/30_encoding.md R79). -/
theorem decodeFamily0_mnemonic_congr {w p : Word} (h : nnField w = nnField p) :
    (decodeFamily0 w).mnemonic = (decodeFamily0 p).mnemonic := by
  unfold decodeFamily0
  rw [h]
  split <;> rfl

/-- Family 0x8 reads the low nibble only (spec/30_encoding.md R79). -/
theorem decodeFamily8_mnemonic_congr {w p : Word} (h : nField w = nField p) :
    (decodeFamily8 w).mnemonic = (decodeFamily8 p).mnemonic := by
  unfold decodeFamily8
  rw [h]
  split <;> rfl

/-- Family 0xE reads the low byte only (spec/30_encoding.md R79). -/
theorem decodeFamilyE_mnemonic_congr {w p : Word} (h : nnField w = nnField p) :
    (decodeFamilyE w).mnemonic = (decodeFamilyE p).mnemonic := by
  unfold decodeFamilyE
  rw [h]
  split <;> rfl

/-- Family 0xF reads the low byte only (spec/30_encoding.md R79). -/
theorem decodeFamilyF_mnemonic_congr {w p : Word} (h : nnField w = nnField p) :
    (decodeFamilyF w).mnemonic = (decodeFamilyF p).mnemonic := by
  unfold decodeFamilyF
  rw [h]
  split <;> rfl

/-- Two words of one family that agree where the family holds its sub-opcode are of one category
(spec/30_encoding.md R79). -/
theorem decodeWord_mnemonic_congr {w p : Word} (hop : opField w = opField p)
    (hlow : opField p = 0x0 ∨ opField p = 0xE ∨ opField p = 0xF → nnField w = nnField p)
    (hnibble : opField p = 0x8 → nField w = nField p) :
    (decodeWord w).mnemonic = (decodeWord p).mnemonic := by
  unfold decodeWord
  rw [hop]
  split
  case h_1 h => exact decodeFamily0_mnemonic_congr (hlow (.inl (BitVec.eq_of_toNat_eq h)))
  case h_9 h => exact decodeFamily8_mnemonic_congr (hnibble (BitVec.eq_of_toNat_eq h))
  case h_15 h => exact decodeFamilyE_mnemonic_congr (hlow (.inr (.inl (BitVec.eq_of_toNat_eq h))))
  case h_16 =>
    have hF : (opField p).toNat = 0xF := by
      have := (opField p).isLt
      simp only [imp_false] at *
      omega
    exact decodeFamilyF_mnemonic_congr (hlow (.inr (.inr (BitVec.eq_of_toNat_eq hF))))
  all_goals rfl

/-- The rows of a family with sub-opcodes ask for the sub-opcode (spec/30_encoding.md R79, R81). -/
theorem opcodeMap_subOpcode_masks : ∀ r ∈ opcodeMap,
    (opField r.pattern = 0x0 ∨ opField r.pattern = 0xE ∨ opField r.pattern = 0xF → r.mask = 0xF0FF) ∧
      (opField r.pattern = 0x8 → r.mask = 0xF00F) := by
  decide

/-- A row's own match word is of the row's category (spec/30_encoding.md R81). -/
theorem decodeWord_pattern_mnemonic : ∀ r ∈ opcodeMap, (decodeWord r.pattern).mnemonic = r.mnemonic := by
  decide

/-- A word a row covers is of the row's category, for its category is that of the row's match word. -/
theorem decodeWord_mnemonic_of_covers {r : OpcodeRow} (hr : r ∈ opcodeMap) {w : Word}
    (h : rowCovers r w = true) : (decodeWord w).mnemonic = r.mnemonic := by
  obtain ⟨hop, hnn, hn⟩ := (rowCovers_fields hr w).mp h
  obtain ⟨hlow, hnibble⟩ := opcodeMap_subOpcode_masks r hr
  rw [← decodeWord_pattern_mnemonic r hr]
  exact decodeWord_mnemonic_congr hop (hnn ∘ hlow) (hn ∘ hnibble)

/-! ## The words no row covers -/

theorem eq_ofNat_of_toNat_eq {n k : Nat} {b : BitVec n} (h : b.toNat = k) : b = BitVec.ofNat n k := by
  rw [← h, BitVec.ofNat_toNat, BitVec.setWidth_eq]

/-- Some row of the opcode map covers the word. -/
def Covered (w : Word) : Prop := ∃ r ∈ opcodeMap, rowCovers r w = true

theorem covered_of_family {w : Word} {op : Nibble} (hop : opField w = op)
    (h : ∃ r ∈ opcodeMap, op = opField r.pattern ∧ r.mask = 0xF000) : Covered w := by
  obtain ⟨r, hr, hf, hm⟩ := h
  exact ⟨r, hr, (rowCovers_fields hr w).mpr ⟨hop.trans hf, by simp [hm], by simp [hm]⟩⟩

theorem covered_of_low_byte {w : Word} {op : Nibble} {nn : Byte} (hop : opField w = op) (hnn : nnField w = nn)
    (h : ∃ r ∈ opcodeMap, op = opField r.pattern ∧ nn = nnField r.pattern ∧ r.mask = 0xF0FF) :
    Covered w := by
  obtain ⟨r, hr, hf, hs, hm⟩ := h
  exact ⟨r, hr, (rowCovers_fields hr w).mpr ⟨hop.trans hf, fun _ => hnn.trans hs, by simp [hm]⟩⟩

theorem covered_of_low_nibble {w : Word} {op n : Nibble} (hop : opField w = op) (hn : nField w = n)
    (h : ∃ r ∈ opcodeMap, op = opField r.pattern ∧ n = nField r.pattern ∧ r.mask = 0xF00F) :
    Covered w := by
  obtain ⟨r, hr, hf, hs, hm⟩ := h
  exact ⟨r, hr, (rowCovers_fields hr w).mpr ⟨hop.trans hf, by simp [hm], fun _ => hn.trans hs⟩⟩

theorem decodeFamily0_unknown_or_covered {w : Word} (hop : opField w = 0x0) :
    decodeFamily0 w = .unknown w ∨ Covered w := by
  unfold decodeFamily0
  split
  case h_3 => exact .inl rfl
  all_goals exact .inr (covered_of_low_byte hop (eq_ofNat_of_toNat_eq ‹_›) (by decide))

theorem decodeFamily8_unknown_or_covered {w : Word} (hop : opField w = 0x8) :
    decodeFamily8 w = .unknown w ∨ Covered w := by
  unfold decodeFamily8
  split
  case h_10 => exact .inl rfl
  all_goals exact .inr (covered_of_low_nibble hop (eq_ofNat_of_toNat_eq ‹_›) (by decide))

theorem decodeFamilyE_unknown_or_covered {w : Word} (hop : opField w = 0xE) :
    decodeFamilyE w = .unknown w ∨ Covered w := by
  unfold decodeFamilyE
  split
  case h_3 => exact .inl rfl
  all_goals exact .inr (covered_of_low_byte hop (eq_ofNat_of_toNat_eq ‹_›) (by decide))

theorem decodeFamilyF_unknown_or_covered {w : Word} (hop : opField w = 0xF) :
    decodeFamilyF w = .unknown w ∨ Covered w := by
  unfold decodeFamilyF
  split
  case h_10 => exact .inl rfl
  all_goals exact .inr (covered_of_low_byte hop (eq_ofNat_of_toNat_eq ‹_›) (by decide))

/-- Only the last arms of the families with sub-opcodes leave a word to no row (spec/30_encoding.md R78). -/
theorem decodeWord_unknown_or_covered (w : Word) : decodeWord w = .unknown w ∨ Covered w := by
  unfold decodeWord
  split
  case h_1 h => exact decodeFamily0_unknown_or_covered (eq_ofNat_of_toNat_eq h)
  case h_9 h => exact decodeFamily8_unknown_or_covered (eq_ofNat_of_toNat_eq h)
  case h_15 h => exact decodeFamilyE_unknown_or_covered (eq_ofNat_of_toNat_eq h)
  case h_16 =>
    have hF : (opField w).toNat = 0xF := by
      have := (opField w).isLt
      simp only [imp_false] at *
      omega
    exact decodeFamilyF_unknown_or_covered (eq_ofNat_of_toNat_eq hF)
  all_goals exact .inr (covered_of_family (eq_ofNat_of_toNat_eq ‹_›) (by decide))

theorem isUnknownWord_iff {w : Word} : isUnknownWord w = true ↔ ¬ Covered w := by
  simp [isUnknownWord, Covered]

theorem decodeWord_of_isUnknownWord {w : Word} (h : isUnknownWord w = true) : decodeWord w = .unknown w :=
  (decodeWord_unknown_or_covered w).resolve_right (isUnknownWord_iff.mp h)

/-- UNKNOWN alone can be ill formed (spec/30_encoding.md R82). -/
theorem wellFormed_of_mnemonic_ne {i : Instr} (h : i.mnemonic ≠ "UNKNOWN") : i.wellFormed = true := by
  cases i with
  | unknown w => exact absurd rfl h
  | _ => rfl

theorem opcodeMap_mnemonic_ne_unknown : ∀ r ∈ opcodeMap, r.mnemonic ≠ "UNKNOWN" := by
  decide

theorem opcodeMap_mnemonics_nodup : (opcodeMap.map OpcodeRow.mnemonic).Nodup := by
  decide

theorem decodeWord_wellFormed (w : Word) : (decodeWord w).wellFormed = true := by
  by_cases h : Covered w
  · obtain ⟨r, hr, hc⟩ := h
    apply wellFormed_of_mnemonic_ne
    rw [decodeWord_mnemonic_of_covers hr hc]
    exact opcodeMap_mnemonic_ne_unknown r hr
  · have hu := isUnknownWord_iff.mpr h
    rw [decodeWord_of_isUnknownWord hu]
    exact hu

/-- Settles O7: a covering row names the decoded category, and no two rows have one name. -/
theorem decodeFollowsOpcodeMap : Obligations.DecodeFollowsOpcodeMap := by
  intro w
  refine ⟨fun r hr => decodeWord_mnemonic_of_covers hr, ?_, decodeWord_of_isUnknownWord,
    decodeWord_wellFormed w⟩
  intro r hr q hq hrw hqw
  have same : r.mnemonic = q.mnemonic :=
    (decodeWord_mnemonic_of_covers hr hrw).symm.trans (decodeWord_mnemonic_of_covers hq hqw)
  exact List.inj_on_of_nodup_map opcodeMap_mnemonics_nodup hr hq same

/-! ## Decoding what was encoded -/

/-- A word's bytes, whatever follows them, decode as the word (spec/30_encoding.md R55, R71). -/
theorem decodeBytes_bytesOfWord (w : Word) (rest : List Byte) :
    decodeBytes (bytesOfWord w ++ rest) = .ok (decodeWord w, rest) := by
  simp [bytesOfWord, decodeBytes]

/-- The family and the sub-opcode the encoder writes lead the decoder back to the instruction
(spec/30_encoding.md R73, R78). -/
theorem decodeWord_encode {i : Instr} (h : i.wellFormed = true) : decodeWord (encode i) = i := by
  cases i with
  | unknown w => exact decodeWord_of_isUnknownWord h
  | clear | ret => simp [encode, decodeWord, decodeFamily0]
  | setReg | or | and | xor | add | subtract | rshift | isubtract | lshift =>
    simp [encode, decodeWord, decodeFamily8]
  | skipIfKey | skipIfNotKey => simp [encode, decodeWord, decodeFamilyE]
  | readDelayTimer | getKey | setDelayTimer | setBeapTimer | addIndex | font | binaryCodedDecimal | store
  | load => simp [encode, decodeWord, decodeFamilyF]
  | jump | call | skipEqImm | skipNeImm | skipEqReg | setImm | addImm | skipNeReg | setIndex | jumpOffset
  | random | display => simp [encode, decodeWord]

/-- Settles O6. -/
theorem decodeEncode : Obligations.DecodeEncode := by
  intro i rest h
  rw [encodeBytes, decodeBytes_bytesOfWord, decodeWord_encode h]

/-- Settles O8: the fields these instructions keep are read back from any packed word. -/
theorem ignoredBits : Obligations.IgnoredBits := by
  intro x y n
  refine ⟨?clear, ?ret, ?skipEqReg, ?skipNeReg, ?rshift, ?lshift⟩
  case clear | ret => simp [decodeWord, decodeFamily0]
  case skipEqReg | skipNeReg => simp [decodeWord]
  case rshift | lshift => simp [decodeWord, decodeFamily8]

/-- Settles O5: seventeen closed words, evaluated. -/
theorem knownWordsDecode : Obligations.KnownWordsDecode := by
  unfold Obligations.KnownWordsDecode
  decide

end Sys2Proof

namespace Sys2Proof.Machine

/-! ## The step and the word it fetches -/

/-- Settles O9. -/
theorem fetchIsBigEndian : Obligations.FetchIsBigEndian := by
  intro s h
  refine ⟨_, fetch_in_range h, ?_⟩
  rw [wordOfBytes_toNat, Nat.mul_comm]

/-- The events of an iteration do not change the word it fetches. -/
theorem fetch_after_input (s : State) :
    fetch (inputPhase Config.keymap s.nextEvents s.dropEvents) = fetch s :=
  (fetch_inputPhase ..).trans (fetch_congr rfl rfl)

section
variable {s : State} (hs : s.status = .running) (hq : .quit ∉ s.nextEvents)
include hs hq

/-- Without a quit a step is the instruction cycle after the input phase, and then the later phases
(spec/60_exceptions.md R230). -/
theorem step_of_cycle {t : State} (hc : cycle (inputPhase Config.keymap s.nextEvents s.dropEvents) = .next t) :
    step s = .next (finishIteration t) := by
  obtain ⟨hmem, -⟩ | ⟨-, hstatus⟩ := inputPhase_status (keymap := Config.keymap) s.nextEvents s.dropEvents
  · exact absurd hmem hq
  · rw [step_running hs]
    exact runCycle_running (hstatus.trans hs) hc

/-- The step runs the fetched word's instruction with `pc` moved on by 2 (spec/30_encoding.md R75). -/
theorem step_of_exec {w : Word} {u : State} (hf : fetch s = .ok w)
    (hx : exec (decodeWord w)
      { inputPhase Config.keymap s.nextEvents s.dropEvents with pc := s.pc + 2 } = .next u) :
    step s = .next (finishIteration u) := by
  apply step_of_cycle hs hq
  rw [cycle_ok ((fetch_after_input s).trans hf), inputPhase_pc, dropEvents_pc]
  exact hx

/-- A fetch that faults ends the iteration (spec/30_encoding.md R75, spec/60_exceptions.md R214). -/
theorem step_of_fetch_fault {r : FaultReason} (hf : fetch s = .error r) :
    step s = .next { inputPhase Config.keymap s.nextEvents s.dropEvents with status := .faulted r } := by
  rw [step_of_cycle hs hq (cycle_error ((fetch_after_input s).trans hf)), finishIteration_stopped (by simp)]

end

/-- Settles O10: the two bytes at `pc` are the word the step fetches. -/
theorem stepRunsDecoded : Obligations.StepRunsDecoded := by
  intro s i rest hs hq hpc hi u hx
  obtain ⟨rfl, -⟩ : decodeWord (wordOfBytes _ _) = i ∧ [] = rest := by simpa [decodeBytes] using hi
  rw [step_of_exec hs hq (fetch_in_range hpc) hx]
  exact ⟨fun h => by rw [finishIteration_running h], fun h => by rw [finishIteration_stopped h]⟩

/-- Settles O11. -/
theorem fetchFault : Obligations.FetchFault := by
  intro s hs hq hpc
  obtain ⟨hin, -⟩ | ⟨-, hf⟩ := fetch_cases s
  · exact absurd hin (Nat.not_lt.mpr hpc)
  · exact step_of_fetch_fault hs hq hf

end Sys2Proof.Machine
end

section
/-!
SUPPORT. The control-flow instructions, one equation for each way they end (spec/40_control_flow.md R100 to R108), and
the settled statements of that family.
-/
namespace Sys2Proof.Machine

/-! ## Jump targets -/

@[simp] theorem zextAddr_toNat (nnn : Addr12) : (zextAddr nnn).toNat = nnn.toNat :=
  BitVec.toNat_setWidth_of_le (by decide)

@[simp] theorem zextByte_toNat (b : Byte) : (zextByte b).toNat = b.toNat :=
  BitVec.toNat_setWidth_of_le (by decide)

/-- The target needs no mask: it is at most 0xFFF + 0xFF, far from wrapping (spec/40_control_flow.md R107). -/
theorem offsetTarget_toNat (nnn : Addr12) (b : Byte) : (offsetTarget nnn b).toNat = nnn.toNat + b.toNat := by
  rw [offsetTarget, BitVec.toNat_add, zextAddr_toNat, zextByte_toNat]
  exact Nat.mod_eq_of_lt (by omega)

/-! ## The instructions -/

section
variable {s : State} {nnn : Addr12}

theorem exec_ret_of_append {below : List Word} {newest : Word} (h : s.stack = below ++ [newest]) :
    exec .ret s = .next { s with pc := newest, stack := below } := by
  simp [exec, execRet, completed_eq, h]

theorem exec_ret_of_empty (h : s.stack = []) : exec .ret s = .next s := by
  simp [exec, execRet, completed_eq, h]

theorem exec_call_of_lt (h : s.stack.length < 16) :
    exec (.call nnn) s = .next { s with stack := s.stack ++ [s.pc], pc := zextAddr nnn } :=
  if_neg (Nat.ne_of_lt h)

theorem exec_call_of_full (h : s.stack.length = 16) :
    exec (.call nnn) s = .next { s with status := .faulted .stackOverflow, pc := s.pc - 2 } :=
  if_pos h

/-- A skip whose test decides `p` moves `pc` on exactly when `p` holds (spec/40_control_flow.md R108). -/
theorem skipIf_of_iff {c : Bool} {p : Prop} [Decidable p] (h : c = true ↔ p) :
    skipIf c s = .next { s with pc := if p then s.pc + 2 else s.pc } := by
  simp only [skipIf_eq, h]

/-- The skips on equality (spec/40_control_flow.md R103, R105). -/
theorem skipIf_beq (a b : Byte) :
    skipIf (a == b) s = .next { s with pc := if a.toNat = b.toNat then s.pc + 2 else s.pc } :=
  skipIf_of_iff (beq_iff_eq.trans BitVec.toNat_inj.symm)

/-- The skips on inequality (spec/40_control_flow.md R104, R106). -/
theorem skipIf_bne (a b : Byte) :
    skipIf (a != b) s = .next { s with pc := if a.toNat = b.toNat then s.pc else s.pc + 2 } := by
  rw [skipIf_of_iff (bne_iff_ne.trans (not_congr BitVec.toNat_inj.symm)), ite_not]

end

/-! ## The statements about single instructions -/

/-- Settles O18. -/
theorem returnPops : Obligations.ReturnPops :=
  ⟨fun _ _ _ => exec_ret_of_append, fun _ => exec_ret_of_empty⟩

/-- Settles O19. -/
theorem jumpTargets : Obligations.JumpTargets :=
  fun s nnn => ⟨⟨_, zextAddr_toNat nnn, rfl⟩, ⟨_, offsetTarget_toNat nnn (s.reg 0), rfl⟩⟩

/-- Settles O20. -/
theorem callPushesOrOverflows : Obligations.CallPushesOrOverflows :=
  fun _ nnn => ⟨fun h => ⟨_, zextAddr_toNat nnn, exec_call_of_lt h⟩, exec_call_of_full⟩

/-- Settles O22. -/
theorem skipsOnCondition : Obligations.SkipsOnCondition :=
  fun _ _ _ _ => ⟨skipIf_beq _ _, skipIf_bne _ _, skipIf_beq _ _, skipIf_bne _ _⟩

/-! ## CALL and RETURN as steps -/

section
variable {s t : State} {w : Word} (ht : step s = .next t) (hq : .quit ∉ s.nextEvents) (hf : fetch s = .ok w)
include ht hq hf

/-- A step that fetches a word, with no quit in the way, ran its instruction with `pc` moved on by 2, from a
state with the step's own stack, and the later phases touched neither (spec/30_encoding.md R75). -/
theorem step_ran_fetched : ∃ u x, u.pc = s.pc + 2 ∧ u.stack = s.stack ∧ exec (decodeWord w) u = .next x ∧
    t.pc = x.pc ∧ t.stack = x.stack := by
  obtain ⟨hs, -⟩ := step_next_cases ht
  obtain ⟨x, hx⟩ := exec_answers (decodeWord w)
    { inputPhase Config.keymap s.nextEvents s.dropEvents with pc := s.pc + 2 }
  obtain rfl := Host.Outcome.next.inj (ht.symm.trans (step_of_exec hs hq hf hx))
  exact ⟨_, x, rfl, by simp, hx, by simp, by simp⟩

theorem step_call {nnn : Addr12} (hw : decodeWord w = .call nnn) (hlen : s.stack.length < 16) :
    t.pc = zextAddr nnn ∧ t.stack = s.stack ++ [s.pc + 2] := by
  obtain ⟨u, x, hpc, hstack, hx, htpc, htstack⟩ := step_ran_fetched ht hq hf
  rw [hw, exec_call_of_lt (hstack ▸ hlen)] at hx
  obtain rfl := Host.Outcome.next.inj hx
  exact ⟨htpc, by rw [htstack, hstack, hpc]⟩

theorem step_ret {below : List Word} {newest : Word} (hw : decodeWord w = .ret)
    (hnewest : s.stack = below ++ [newest]) : t.pc = newest ∧ t.stack = below := by
  obtain ⟨u, x, -, hstack, hx, htpc, htstack⟩ := step_ran_fetched ht hq hf
  rw [hw, exec_ret_of_append (hstack.trans hnewest)] at hx
  obtain rfl := Host.Outcome.next.inj hx
  exact ⟨htpc, htstack⟩

end

/-- Settles O21: the entry the CALL pushed is the newest one when the RETURN pops. -/
theorem callReturnLaw : Obligations.CallReturnLaw := by
  intro s t u v nnn w1 w2 hlen ht hq1 hf1 hw1 hstack hv hq2 hf2 hw2
  obtain ⟨htarget, hpushed⟩ := step_call ht hq1 hf1 hw1 hlen
  obtain ⟨hpc, hpopped⟩ := step_ret hv hq2 hf2 hw2 (hstack.trans hpushed)
  exact ⟨hpc, hpopped, htarget⟩

end Sys2Proof.Machine
end

section
/-!
SUPPORT. The register and arithmetic group: what a completed instruction that writes one register, or one register and
the flag, leaves in every register (spec/41_register_alu.md R120 to R141), the flags as numbers, and the settled
statements of that family.
-/
namespace Sys2Proof.Machine

/-! ## Instructions that write one register -/

section
variable (s : State) (x : Reg) (b : Byte)

/-- A completed write of `Vx` changes the registers alone, and of them `Vx` alone. -/
theorem completed_setReg : ∃ v, completed (s.setReg x b) = .next { s with v := v } ∧
    ∀ r : Reg, v[r.val] = if r = x then b else s.reg r :=
  ⟨_, rfl, fun r => reg_setReg s x r b⟩

/-- `completed_setReg` with the registers read as numbers. -/
theorem completed_setReg_toNat {n : Nat} (hb : b.toNat = n) :
    ∃ v, completed (s.setReg x b) = .next { s with v := v } ∧
      ∀ r : Reg, v[r.val].toNat = if r = x then n else (s.reg r).toNat := by
  obtain ⟨v, hv, hr⟩ := completed_setReg s x b
  exact ⟨v, hv, fun r => by rw [hr, apply_ite BitVec.toNat, hb]⟩

/-- `completed_setReg` with the registers read bit by bit. -/
theorem completed_setReg_bits {f : Nat → Bool} (hb : ∀ k, b.getLsbD k = f k) :
    ∃ v, completed (s.setReg x b) = .next { s with v := v } ∧
      ∀ (r : Reg) (k : Nat), v[r.val].getLsbD k = if r = x then f k else (s.reg r).getLsbD k := by
  obtain ⟨v, hv, hr⟩ := completed_setReg s x b
  exact ⟨v, hv, fun r k => by rw [hr, apply_ite (BitVec.getLsbD · k), hb]⟩

/-- A completed write of a result and then a flag changes the registers alone: VF is the flag, even where it is the
result register, and `Vx` is the result (spec/41_register_alu.md R126). -/
theorem completed_setRegFlag_toNat {f : Bool} {n m : Nat} (hb : b.toNat = n) (hf : (flagByte f).toNat = m) :
    ∃ v, completed (s.setRegFlag x b f) = .next { s with v := v } ∧
      ∀ r : Reg, v[r.val].toNat = if r = 15 then m else if r = x then n else (s.reg r).toNat := by
  refine ⟨_, rfl, fun r => ?_⟩
  change ((s.setRegFlag x b f).reg r).toNat = _
  rw [reg_setRegFlag, apply_ite BitVec.toNat, apply_ite BitVec.toNat, hb, hf]

end

/-! ## The flags as numbers -/

theorem flagByte_decide_toNat (p : Prop) [Decidable p] : (flagByte (decide p)).toNat = if p then 1 else 0 := by
  by_cases h : p <;> simp [flagByte, h]

/-- A flag that is bit `k` of a byte (spec/41_register_alu.md R132, R134). -/
theorem flagByte_getLsbD_toNat (a : Byte) (k : Nat) : (flagByte (a.getLsbD k)).toNat = a.toNat / 2 ^ k % 2 := by
  rw [BitVec.getLsbD, Nat.testBit_eq_decide_div_mod_eq, flagByte_decide_toNat]
  split <;> omega

theorem carryFlag_toNat (a b : Byte) :
    (flagByte (carryFlag a b)).toNat = if a.toNat + b.toNat > 255 then 1 else 0 :=
  flagByte_decide_toNat _

theorem greaterFlag_toNat (a b : Byte) :
    (flagByte (greaterFlag a b)).toNat = if a.toNat > b.toNat then 1 else 0 :=
  flagByte_decide_toNat _

theorem lowBitFlag_toNat (a : Byte) : (flagByte (lowBitFlag a)).toNat = a.toNat % 2 := by
  rw [lowBitFlag, flagByte_getLsbD_toNat, pow_zero, Nat.div_one]

/-- The old bit 7 is all that is left above the low seven bits (spec/41_register_alu.md R134). -/
theorem highBitFlag_toNat (a : Byte) : (flagByte (highBitFlag a)).toNat = a.toNat / 128 := by
  have := a.isLt
  rw [highBitFlag, flagByte_getLsbD_toNat]
  omega

/-! ## The results as numbers -/

/-- A difference wraps modulo 256 (spec/41_register_alu.md R127). -/
theorem byte_sub_toNat (a b : Byte) : (a - b).toNat = (a.toNat + 256 - b.toNat) % 256 := by
  have := b.isLt
  rw [BitVec.toNat_sub]
  omega

theorem byte_shiftRight_one_toNat (a : Byte) : (a >>> 1).toNat = a.toNat / 2 := by
  rw [BitVec.toNat_ushiftRight, Nat.shiftRight_one]

theorem byte_shiftLeft_one_toNat (a : Byte) : (a <<< 1).toNat = a.toNat * 2 % 256 := by
  rw [BitVec.toNat_shiftLeft, Nat.shiftLeft_eq, pow_one]

/-! ## The statements -/

/-- Settles O23. -/
theorem setAndAddImmediate : Obligations.SetAndAddImmediate :=
  fun s x y nn => ⟨completed_setReg s x nn, completed_setReg_toNat s x _ (BitVec.toNat_add (s.reg x) nn),
    completed_setReg s x (s.reg y)⟩

/-- Settles O24. -/
theorem logicGroup : Obligations.LogicGroup :=
  fun s x _ => ⟨completed_setReg_bits s x _ fun _ => BitVec.getLsbD_or,
    completed_setReg_bits s x _ fun _ => BitVec.getLsbD_and,
    completed_setReg_bits s x _ fun _ => BitVec.getLsbD_xor⟩

/-- Settles O25. -/
theorem addCarry : Obligations.AddCarry :=
  fun s x y => ⟨decodeWord_encode (i := .add x y) rfl,
    completed_setRegFlag_toNat s x _ (BitVec.toNat_add _ _) (carryFlag_toNat _ _)⟩

/-- Settles O26. -/
theorem subtractBorrow : Obligations.SubtractBorrow :=
  fun s x y => ⟨decodeWord_encode (i := .subtract x y) rfl,
    completed_setRegFlag_toNat s x _ (byte_sub_toNat _ _) (greaterFlag_toNat _ _)⟩

/-- Settles O27. -/
theorem isubtractBorrow : Obligations.IsubtractBorrow :=
  fun s x y => ⟨decodeWord_encode (i := .isubtract x y) rfl,
    completed_setRegFlag_toNat s x _ (byte_sub_toNat _ _) (greaterFlag_toNat _ _)⟩

/-- Settles O28: that Y is ignored is O8. -/
theorem rightShift : Obligations.RightShift := by
  intro s x y
  obtain ⟨-, -, -, -, hdecode, -⟩ := ignoredBits x y 0
  exact ⟨hdecode, completed_setRegFlag_toNat s x _ (byte_shiftRight_one_toNat _) (lowBitFlag_toNat _)⟩

/-- Settles O29: that Y is ignored is O8. -/
theorem leftShift : Obligations.LeftShift := by
  intro s x y
  obtain ⟨-, -, -, -, -, hdecode⟩ := ignoredBits x y 0
  exact ⟨hdecode, completed_setRegFlag_toNat s x _ (byte_shiftLeft_one_toNat _) (highBitFlag_toNat _)⟩

/-! ## RANDOM -/

/-- A listed random byte is the one drawn, and is used up (spec/41_register_alu.md R140). -/
theorem nextRandom_listed {s : State} {r : Byte} {rest : List Byte} (h : s.draws.randoms = r :: rest) :
    s.nextRandom = r ∧ s.dropRandom.draws.randoms = rest := by
  simp only [State.nextRandom, State.dropRandom, h, and_self]

/-- RANDOM is a write of `Vx` after the draw, which changes the draws alone (spec/41_register_alu.md R141). -/
theorem exec_random (s : State) (x : Reg) (nn : Byte) :
    exec (.random x nn) s =
      completed ({ s with draws := s.dropRandom.draws }.setReg x (s.nextRandom &&& nn)) := by
  rw [← dropRandom_frame]
  rfl

/-- Settles O30: the byte is the next draw, listed or free. -/
theorem randomMasksDraw : Obligations.RandomMasksDraw := by
  intro s x nn
  obtain ⟨v, hv, hbits⟩ := completed_setReg_bits { s with draws := s.dropRandom.draws } x
    (s.nextRandom &&& nn) fun _ => BitVec.getLsbD_and
  exact ⟨v, s.dropRandom.draws, s.nextRandom, (exec_random s x nn).trans hv, hbits,
    fun _ _ => nextRandom_listed⟩

end Sys2Proof.Machine
end

section
/-!
SUPPORT. The index register and the transfers at `I` (spec/42_index_memory.md R150 to R156): the computed addresses as
numbers, one equation for each way a transfer ends, and the settled statements of that family.
-/
namespace Sys2Proof.Machine

/-! ## Blocks inside memory and past its end -/

section
variable {m : Memory} {base : Nat} {bs : List Byte}

theorem writeBlock_in_range (h : base + bs.length ≤ Config.memSize) :
    writeBlock m base bs = .ok (memWriteAll m base bs) := by
  obtain ⟨-, hw⟩ | ⟨hout, -⟩ := writeBlock_cases m base bs
  · exact hw
  · exact absurd (.inr h) hout

theorem writeBlock_past_end (hne : bs.length ≠ 0) (h : Config.memSize < base + bs.length) :
    writeBlock m base bs = .error (.addressOutOfRange Config.memSize) := by
  obtain ⟨hin, -⟩ | ⟨-, hw⟩ := writeBlock_cases m base bs
  · exact absurd h (Nat.not_lt.mpr (hin.resolve_left hne))
  · exact hw

theorem readBlock_in_range {n : Nat} (h : base + n ≤ Config.memSize) :
    readBlock m base n = .ok (memReadAll m base n) := by
  obtain ⟨-, hr⟩ | ⟨hout, -⟩ := readBlock_cases m base n
  · exact hr
  · exact absurd (.inr h) hout

theorem readBlock_past_end {n : Nat} (hne : n ≠ 0) (h : Config.memSize < base + n) :
    readBlock m base n = .error (.addressOutOfRange Config.memSize) := by
  obtain ⟨hin, -⟩ | ⟨-, hr⟩ := readBlock_cases m base n
  · exact absurd h (Nat.not_lt.mpr (hin.resolve_left hne))
  · exact hr

/-- The byte at `base + k` after a block write is the block's k-th. -/
theorem memRead_memWriteAll_inside (hm : m.wf) (hlen : base + bs.length ≤ Config.memSize) {k : Nat} {b : Byte}
    (hk : bs[k]? = some b) : memRead (memWriteAll m base bs) (base + k) = b := by
  rw [memRead_memWriteAll _ hm hlen, if_pos (Nat.le_add_right _ _), Nat.add_sub_cancel_left, hk]
  rfl

end

/-! ## How the transfers end -/

section
variable {s : State} {x : Reg}

theorem exec_binaryCodedDecimal_in_range (h : s.index.toNat + 2 < Config.memSize) :
    exec (.binaryCodedDecimal x) s =
      .next { s with mem := memWriteAll s.mem s.index.toNat (bcdDigits (s.reg x)) } := by
  rw [exec, execBinaryCodedDecimal, baseAddress, writeBlock_in_range h]
  rfl

theorem exec_load_in_range (h : s.index.toNat + x.val < Config.memSize) :
    exec (.load x) s =
      .next { s with v := loadRegs s.v 0 (memReadAll s.mem s.index.toNat (x.val + 1)) } := by
  rw [exec, execLoad, baseAddress, readBlock_in_range h]
  rfl

theorem exec_binaryCodedDecimal_past_end (h : Config.memSize ≤ s.index.toNat + 2) :
    exec (.binaryCodedDecimal x) s = raiseFault s (.addressOutOfRange Config.memSize) := by
  rw [exec, execBinaryCodedDecimal, baseAddress, writeBlock_past_end (by simp [bcdDigits]) (Nat.lt_succ_of_le h)]

theorem exec_store_past_end (h : Config.memSize ≤ s.index.toNat + x.val) :
    exec (.store x) s = raiseFault s (.addressOutOfRange Config.memSize) := by
  have hlen := regsUpTo_length s x
  rw [exec, execStore, baseAddress, writeBlock_past_end (by omega) (by omega)]

theorem exec_load_past_end (h : Config.memSize ≤ s.index.toNat + x.val) :
    exec (.load x) s = raiseFault s (.addressOutOfRange Config.memSize) := by
  rw [exec, execLoad, baseAddress, readBlock_past_end (Nat.succ_ne_zero _) (Nat.lt_succ_of_le h)]

/-! ### What they leave in memory and in the registers -/

/-- The byte at `I + k` after BINARY_CODED_DECIMAL is the k-th digit (spec/42_index_memory.md R153). -/
theorem memRead_bcdDigit (hm : s.mem.wf) (h : s.index.toNat + 2 < Config.memSize) {k d : Nat} (hd : d < 256)
    (hk : (bcdDigits (s.reg x))[k]? = some (BitVec.ofNat 8 d)) :
    (memRead (memWriteAll s.mem s.index.toNat (bcdDigits (s.reg x))) (s.index.toNat + k)).toNat = d := by
  rw [memRead_memWriteAll_inside hm h hk, BitVec.toNat_ofNat, Nat.mod_eq_of_lt hd]

/-- What LOAD leaves in each register: the block's byte up to `Vx`, the old value above. -/
theorem loadRegs_memReadAll (m : Memory) (base : Nat) (r : Reg) :
    (loadRegs s.v 0 (memReadAll m base (x.val + 1)))[r.val] =
      if r ≤ x then memRead m (base + r.val) else s.reg r := by
  rw [loadRegs_get, if_pos (Nat.zero_le _), Nat.sub_zero]
  split
  next hr =>
    rw [memReadAll_get _ _ _ _ (Nat.lt_succ_of_le (Fin.le_def.mp hr))]
    rfl
  next hr =>
    have hpast : x.val + 1 ≤ r.val := Nat.lt_of_not_le hr
    rw [List.getElem?_eq_none (memReadAll_length m base _ ▸ hpast)]
    rfl

end

/-! ## The computed addresses and the flag as numbers -/

/-- The sum of a word and a byte may wrap at 16 bits, but not in the 12 bits kept (spec/42_index_memory.md R151). -/
theorem addIndexResult_toNat (index : Word) (b : Byte) :
    (addIndexResult index b).toNat = (index.toNat + b.toNat) % 4096 := by
  have hmask : (0x0FFF : Word).toNat = 2 ^ 12 - 1 := rfl
  rw [addIndexResult, BitVec.toNat_and, hmask, Nat.and_two_pow_sub_one_eq_mod, BitVec.toNat_add, zextByte_toNat]
  omega

theorem indexOverflowFlag_toNat (index : Word) (b : Byte) :
    (flagByte (indexOverflowFlag index b)).toNat = if index.toNat + b.toNat > 0x0FFF then 1 else 0 :=
  flagByte_decide_toNat _

theorem fontAddress_toNat (b : Byte) : (fontAddress b).toNat = b.toNat % 16 * 5 + 0x050 := by
  have hmask : (0x0F : Byte).toNat = 2 ^ 4 - 1 := rfl
  rw [fontAddress, BitVec.toNat_ofNat, BitVec.toNat_and, hmask, Nat.and_two_pow_sub_one_eq_mod]
  change (b.toNat % 16 * 5 + 0x050) % 65536 = _
  omega

/-! ## The statements -/

/-- Settles O33: the k-th byte of the block is the k-th digit. -/
theorem bcdStoresDigits : Obligations.BcdStoresDigits := by
  intro s x hm h
  have := (s.reg x).isLt
  exact ⟨_, exec_binaryCodedDecimal_in_range h, wf_memWriteAll _ hm h,
    memRead_bcdDigit (k := 0) hm h (by omega) rfl, memRead_bcdDigit (k := 1) hm h (by omega) rfl,
    memRead_bcdDigit (k := 2) hm h (by omega) rfl, fun _ ha => memRead_memWriteAll_outside _ _ ha⟩

/-- Settles O34. -/
theorem storeWritesRegisters : Obligations.StoreWritesRegisters := by
  intro s x hm h
  have hlen := regsUpTo_length s x
  exact ⟨_, exec_store_in_range h, wf_memWriteAll _ hm (by rwa [hlen]), fun _ => memRead_stored hm h,
    fun _ ha => memRead_memWriteAll_outside _ _ (by omega)⟩

/-- Settles O35. -/
theorem loadReadsRegisters : Obligations.LoadReadsRegisters :=
  fun _ _ h => ⟨_, exec_load_in_range h, loadRegs_memReadAll _ _⟩

/-- Settles O31. -/
theorem indexWrites : Obligations.IndexWrites :=
  fun s x nnn => ⟨⟨_, zextAddr_toNat nnn, rfl⟩, ⟨_, fontAddress_toNat (s.reg x), rfl⟩⟩

/-- Settles O32: `I` and the flag are both computed from the state before the instruction. -/
theorem addIndexOverflow : Obligations.AddIndexOverflow := by
  intro s x
  refine ⟨decodeWord_encode (i := .addIndex x) rfl, _, _, rfl, addIndexResult_toNat _ _, fun r => ?_⟩
  change ((s.setFlag (indexOverflowFlag s.index (s.reg x))).reg r).toNat = _
  rw [reg_setFlag, apply_ite BitVec.toNat, indexOverflowFlag_toNat]

/-- Settles O36. -/
theorem transferFaults : Obligations.TransferFaults :=
  fun _ _ => ⟨exec_binaryCodedDecimal_past_end, fun h => ⟨exec_store_past_end h, exec_load_past_end h⟩⟩

end Sys2Proof.Machine
end

section
/-!
SUPPORT. CLEAR and DISPLAY (spec/43_display.md R170 to R174): what a whole sprite does to every cell and to VF, one
equation for each way DISPLAY ends, and the settled statements of that family.
-/
namespace Sys2Proof.Machine

/-! ## VF as a truth value -/

theorem flagByte_eq_one_iff (f : Bool) : flagByte f = 1 ↔ f = true := by
  cases f <;> decide

theorem flagByte_eq_zero_iff (f : Bool) : flagByte f = 0 ↔ f = false := by
  cases f <;> decide

/-! ## The sprite that is drawn -/

section
variable (s : State) (x y : Reg) (n : Nibble)

/-- The framebuffer and the collision after the rows of the sprite are drawn (spec/43_display.md R173). -/
def drawSprite : Framebuffer × Bool :=
  drawRows (startColumn s x) (startRow s y) (memReadAll s.mem s.index.toNat (drawnRows s y n)) (s.fb, false)

/-- The rows drawn lie in memory, or none is drawn (spec/43_display.md R173). -/
def SpriteInMemory : Prop :=
  drawnRows s y n = 0 ∨ s.index.toNat + drawnRows s y n ≤ Config.memSize

/-- The sprite has a set bit on a cell that is set (spec/43_display.md R171). -/
def Collides : Prop :=
  ∃ cx cy, spriteCovers s x y n cx cy = true ∧ cellAt s.fb cx cy = true

/-- `spriteCovers` in the words of the drawing loop: a row of the sprite on the screen, and its bit. -/
theorem spriteCovers_eq_rowBit (cx cy : Nat) :
    spriteCovers s x y n cx cy =
      (decide (startRow s y ≤ cy ∧ cy < startRow s y + n.toNat ∧ cy < Config.screenH) &&
        rowBit (memRead s.mem (s.index.toNat + (cy - startRow s y))) (startColumn s x) 8 cx) := by
  rw [Bool.eq_iff_iff]
  simp only [spriteCovers, rowBit, startColumn, startRow, Bool.and_eq_true, decide_eq_true_eq, ← and_assoc]
  exact and_congr_left fun _ => by omega

/-- The rows read from memory cover the cells `spriteCovers` names: a row that is not drawn lies past the
bottom edge or is none of the first `N`. -/
theorem rowsBit_sprite (cx cy : Nat) :
    rowsBit (memReadAll s.mem s.index.toNat (drawnRows s y n)) (startColumn s x) (startRow s y) cx cy =
      spriteCovers s x y n cx cy := by
  have hrows : drawnRows s y n = min n.toNat (Config.screenH - startRow s y) := rfl
  rw [spriteCovers_eq_rowBit, rowsBit]
  by_cases hle : startRow s y ≤ cy
  · by_cases hlt : cy - startRow s y < drawnRows s y n
    · rw [decide_eq_true hle, decide_eq_true (by omega), memReadAll_get _ _ _ _ hlt, Option.any_some]
    · rw [List.getElem?_eq_none (by rw [memReadAll_length]; omega), Option.any_none, Bool.and_false,
        decide_eq_false (by omega), Bool.false_and]
  · rw [decide_eq_false hle, decide_eq_false (by omega), Bool.false_and, Bool.false_and]

theorem sprite_above_bottom :
    startRow s y + (memReadAll s.mem s.index.toNat (drawnRows s y n)).length ≤ Config.screenH := by
  rw [memReadAll_length]
  exact drawnRows_le s y n

/-- The draw toggles exactly the cells the sprite covers. -/
theorem cellAt_drawSprite (cx cy : Nat) :
    cellAt (drawSprite s x y n).1 cx cy = (cellAt s.fb cx cy ^^ spriteCovers s x y n cx cy) := by
  rw [drawSprite, cellAt_drawRows _ _ _ _ _ (sprite_above_bottom s y n), rowsBit_sprite]

theorem drawSprite_collision : (drawSprite s x y n).2 = true ↔ Collides s x y n := by
  rw [drawSprite, drawRows_collision _ _ _ (sprite_above_bottom s y n)]
  simp only [rowsBit_sprite, Bool.false_eq_true, false_or, Collides]

end

/-! ## How DISPLAY ends -/

section
variable {s t : State} {x y : Reg} {n : Nibble}

/-- DISPLAY of a sprite in memory writes the framebuffer and VF alone (spec/43_display.md R173). -/
theorem exec_display_in_memory (h : SpriteInMemory s y n) :
    exec (.display x y n) s =
      .next { s with v := (s.setFlag (drawSprite s x y n).2).v, fb := (drawSprite s x y n).1 } := by
  obtain ⟨-, hr⟩ | ⟨hout, -⟩ := readBlock_cases s.mem s.index.toNat (drawnRows s y n)
  · rw [exec, execDisplay, baseAddress, hr]
    rfl
  · exact absurd h hout

theorem exec_display_past_end (h : ¬ SpriteInMemory s y n) :
    exec (.display x y n) s = raiseFault s (.addressOutOfRange Config.memSize) := by
  obtain ⟨hin, -⟩ | ⟨-, hr⟩ := readBlock_cases s.mem s.index.toNat (drawnRows s y n)
  · exact absurd hin h
  · rw [exec, execDisplay, baseAddress, hr]

/-- A DISPLAY that leaves the machine running has drawn. -/
theorem spriteInMemory_of_running (h : exec (.display x y n) s = .next t) (ht : t.status = .running) :
    SpriteInMemory s y n := by
  by_contra hout
  rw [exec_display_past_end hout] at h
  obtain rfl := Host.Outcome.next.inj h
  cases ht

/-- What a DISPLAY that draws leaves in every cell and in VF (spec/43_display.md R173). -/
theorem display_drawn (hin : SpriteInMemory s y n) (h : exec (.display x y n) s = .next t) :
    (∀ cx cy, cellAt t.fb cx cy = (cellAt s.fb cx cy ^^ spriteCovers s x y n cx cy)) ∧
      (t.reg 15 = 1 ↔ Collides s x y n) := by
  rw [exec_display_in_memory hin] at h
  obtain rfl := Host.Outcome.next.inj h
  refine ⟨cellAt_drawSprite s x y n, ?_⟩
  change (s.setFlag (drawSprite s x y n).2).reg flagReg = 1 ↔ _
  rw [reg_setFlag, if_pos rfl, flagByte_eq_one_iff, drawSprite_collision]

/-! ### What decides where a sprite is drawn, and from which bytes -/

theorem spriteInMemory_congr (n : Nibble) (hy : t.reg y = s.reg y) (hindex : t.index = s.index) :
    SpriteInMemory t y n ↔ SpriteInMemory s y n := by
  simp only [SpriteInMemory, drawnRows, startRow, hy, hindex]

theorem spriteCovers_congr (n : Nibble) (hx : t.reg x = s.reg x) (hy : t.reg y = s.reg y)
    (hindex : t.index = s.index) (hmem : t.mem = s.mem) : spriteCovers t x y n = spriteCovers s x y n := by
  unfold spriteCovers
  rw [hx, hy, hindex, hmem]

end

/-- The two instructions that write the framebuffer (spec/43_display.md R170). -/
theorem InstrEffect.fb_writer {i : Instr} {s t : State} (h : InstrEffect s i t) (hne : t.fb ≠ s.fb) :
    i = .clear ∨ ∃ x y n, i = .display x y n := by
  cases h with
  | clear => exact .inl rfl
  | display x y n => exact .inr ⟨x, y, n, rfl⟩
  | fault | goto | call | ret | registers | index | memory | timers | report => exact absurd rfl hne

/-! ## The statements -/

/-- Settles O39. -/
theorem displayDraws : Obligations.DisplayDraws := by
  intro s x y n hin
  have hreg := reg_setFlag s (drawSprite s x y n).2
  have hcoll := drawSprite_collision s x y n
  exact ⟨_, _, exec_display_in_memory hin, cellAt_drawSprite s x y n, fun r hr => (hreg r).trans (if_neg hr),
    fun h => (hreg 15).trans ((flagByte_eq_one_iff _).mpr (hcoll.mpr h)),
    fun h => (hreg 15).trans ((flagByte_eq_zero_iff _).mpr (Bool.eq_false_iff.mpr (mt hcoll.mp h)))⟩

/-- Settles O40. -/
theorem displayFaults : Obligations.DisplayFaults :=
  fun _ _ _ _ hpos hout => exec_display_past_end (not_or.mpr ⟨hpos.ne', Nat.not_le.mpr hout⟩)

/-- Settles O41: the second draw toggles the same cells back, and finds set exactly the covered cells that
were off before the first. -/
theorem drawTwiceRestores : Obligations.DrawTwiceRestores := by
  intro s t t' u x y n hfirst hstatus hrunning hx hy hindex hmem hfb hsecond
  have hin := spriteInMemory_of_running hfirst (hstatus.trans hrunning)
  obtain ⟨hcell, hflag⟩ := display_drawn hin hfirst
  obtain ⟨hcell', hflag'⟩ := display_drawn ((spriteInMemory_congr n hy hindex).mpr hin) hsecond
  have hcovers := spriteCovers_congr n hx hy hindex hmem
  refine ⟨framebuffer_ext fun cx cy => ?_, hflag, hflag'.trans ?_⟩
  · rw [hcell', hfb, hcovers, hcell, Bool.xor_assoc, Bool.xor_self, Bool.xor_false]
  · refine exists_congr fun cx => exists_congr fun cy => ?_
    rw [hfb, hcovers, hcell]
    refine and_congr_right fun hc => ?_
    rw [hc, Bool.xor_true, Bool.not_eq_true']

/-- Settles O54: no phase of the scheduler writes the framebuffer. -/
theorem framebufferWriters : Obligations.FramebufferWriters := by
  intro s s' h hne
  obtain same | ⟨w, u, t, hf, same, -, effect, rfl⟩ := step_effect h
  · exact absurd same.fb hne
  · rw [finishIteration_fb, ← same.fb] at hne
    exact ⟨w, hf, effect.fb_writer hne⟩

/-- Settles O38. -/
theorem clearBlanks : Obligations.ClearBlanks :=
  fun _ => ⟨blankFramebuffer, rfl, cellAt_blank⟩

end Sys2Proof.Machine
end

section
/-!
SUPPORT. The keypad and timer instructions (spec/44_keypad_timers.md R190 to R196): what the key latch answers, one
equation for each way their instructions end, and the settled statements of that family.
-/
namespace Sys2Proof.Machine

/-! ## The key latch -/

/-- A key zero-extended to 8 bits keeps its number (spec/44_keypad_timers.md R191, R193). -/
@[simp] theorem keyByte_toNat (k : Key) : (keyByte k).toNat = k.val :=
  Nat.mod_eq_of_lt (k.isLt.trans (by decide))

section
variable {s : State} {x : Reg} {k : Key}

theorem latchedKey_of_pressed (hp : s.pressed = true) (hk : s.key = some k) : s.latchedKey = some k :=
  (if_pos hp).trans hk

theorem latchedKey_of_not_pressed (hp : s.pressed = false) : s.latchedKey = none :=
  if_neg (Bool.eq_false_iff.mp hp)

theorem keyMatches_of_some (h : s.latchedKey = some k) : s.keyMatches x = (s.reg x == keyByte k) := by
  rw [State.keyMatches, h]

/-- No key pressed is no match, whatever `Vx` holds (spec/44_keypad_timers.md R191, R192). -/
theorem keyMatches_of_none (h : s.latchedKey = none) : s.keyMatches x = false := by
  rw [State.keyMatches, h]

/-! ## The instructions that read the latch -/

theorem exec_skipIfKey_of_some (h : s.latchedKey = some k) :
    exec (.skipIfKey x) s = .next { s with pc := if (s.reg x).toNat = k.val then s.pc + 2 else s.pc } := by
  rw [exec, execSkipIfKey, keyMatches_of_some h, skipIf_beq, keyByte_toNat]

theorem exec_skipIfNotKey_of_some (h : s.latchedKey = some k) :
    exec (.skipIfNotKey x) s = .next { s with pc := if (s.reg x).toNat = k.val then s.pc else s.pc + 2 } := by
  rw [exec, execSkipIfNotKey, keyMatches_of_some h, ← bne, skipIf_bne, keyByte_toNat]

theorem exec_skipIfKey_of_none (h : s.latchedKey = none) : exec (.skipIfKey x) s = .next s := by
  rw [exec, execSkipIfKey, keyMatches_of_none h, skipIf_eq, if_neg Bool.false_ne_true]

theorem exec_skipIfNotKey_of_none (h : s.latchedKey = none) :
    exec (.skipIfNotKey x) s = .next { s with pc := s.pc + 2 } := by
  rw [exec, execSkipIfNotKey, keyMatches_of_none h, skipIf_eq, Bool.not_false, if_pos rfl]

theorem exec_getKey_of_some (h : s.latchedKey = some k) :
    exec (.getKey x) s = completed (s.setReg x (keyByte k)) := by
  rw [exec, execGetKey, h]

theorem exec_getKey_of_none (h : s.latchedKey = none) :
    exec (.getKey x) s = .next { s with pc := s.pc - 2 } := by
  rw [exec, execGetKey, h, retry_eq]

end

/-! ## The timer sets -/

section
variable (s : State) (x : Reg)

theorem exec_setDelayTimer : exec (.setDelayTimer x) s = .next { s with
    dt := s.reg x, tRef := s.readClock.clock, clock := s.readClock.clock, draws := s.readClock.draws } := by
  rw [exec, execSetDelayTimer, readClock_frame, completed_eq]

theorem exec_setBeapTimer : exec (.setBeapTimer x) s = .next { s with
    st := s.reg x, tRef := s.readClock.clock, clock := s.readClock.clock, draws := s.readClock.draws } := by
  rw [exec, execSetBeapTimer, readClock_frame, completed_eq]

end

/-! ## The statements -/

/-- Settles O42. -/
theorem keySkips : Obligations.KeySkips := by
  refine fun s x => ⟨fun k hp hk => ?_, fun hp => ?_⟩
  · have h := latchedKey_of_pressed hp hk
    exact ⟨exec_skipIfKey_of_some h, exec_skipIfNotKey_of_some h⟩
  · have h := latchedKey_of_not_pressed hp
    exact ⟨exec_skipIfKey_of_none h, exec_skipIfNotKey_of_none h⟩

/-- Settles O43. -/
theorem getKeyTakesOrRetries : Obligations.GetKeyTakesOrRetries := by
  refine fun s x => ⟨fun k hp hk => ?_, fun hp => exec_getKey_of_none (latchedKey_of_not_pressed hp)⟩
  rw [exec_getKey_of_some (latchedKey_of_pressed hp hk)]
  exact completed_setReg_toNat s x _ (keyByte_toNat k)

/-- Settles O44. -/
theorem readDelay : Obligations.ReadDelay :=
  fun s x => ⟨decodeWord_encode (i := .readDelayTimer x) rfl, completed_setReg s x s.dt⟩

/-- Settles O45: both sets take the same reading of the clock. -/
theorem timerSets : Obligations.TimerSets :=
  fun s x => ⟨s.readClock.clock, s.readClock.draws, readClock_clock_ge s, fun _ _ => readClock_listed s,
    exec_setDelayTimer s x, exec_setBeapTimer s x⟩

end Sys2Proof.Machine
end

section
/-!
SUPPORT. The scheduler's phases one by one, the faults, the clock and the timers over a step and over a run
(spec/60_exceptions.md R210 to R241), and the settled statements of that family.
-/
namespace Sys2Proof.Machine

/-! ## The input phase -/

section
variable {keymap : HostKey → Option Key}

/-- Events without a quit are handled before those after them (spec/60_exceptions.md R231). -/
theorem inputPhase_append (es later : List HostEvent) : ∀ s : State, .quit ∉ es →
    inputPhase keymap (es ++ later) s = inputPhase keymap later (inputPhase keymap es s) := by
  induction es with
  | nil => exact fun _ _ => rfl
  | cons e es ih =>
    intro s hq
    obtain ⟨hne, hes⟩ := not_or.mp (mt List.mem_cons.mpr hq)
    cases e with
    | quit => exact absurd rfl hne
    | other => exact ih s hes
    | keyDown h =>
      simp only [List.cons_append, inputPhase]
      cases keymap h with
      | none => exact ih s hes
      | some k => exact ih _ hes

theorem inputPhase_keyDown_some {h : HostKey} {k : Key} (hk : keymap h = some k) (s : State) :
    inputPhase keymap [.keyDown h] s = s.latchKey k := by
  simp only [inputPhase, hk]

theorem inputPhase_keyDown_none {h : HostKey} (hk : keymap h = none) (s : State) :
    inputPhase keymap [.keyDown h] s = s := by
  simp only [inputPhase, hk]

theorem inputPhase_status_of_no_quit {es : List HostEvent} (hq : .quit ∉ es) (s : State) :
    (inputPhase keymap es s).status = s.status := by
  obtain ⟨hmem, -⟩ | ⟨-, hstatus⟩ := inputPhase_status (keymap := keymap) es s
  · exact absurd hmem hq
  · exact hstatus

/-- The last key latched stands alone in the latch, whatever key-downs came before it (R231). -/
theorem latchKey_after_input {es : List HostEvent} (hq : .quit ∉ es) (s : State) (k : Key) :
    (inputPhase keymap es s).latchKey k = { s with
      key := some k, pressed := true,
      keyRef := ((inputPhase keymap es s).latchKey k).clock,
      clock := ((inputPhase keymap es s).latchKey k).clock,
      draws := ((inputPhase keymap es s).latchKey k).draws } := by
  ext1 <;> simp [inputPhase_status_of_no_quit hq]

end

theorem runCycle_halted {s : State} (h : s.status = .halted) : runCycle s = .next s := by
  rw [runCycle, h]

/-! ## The later phases -/

section
variable {s : State}

@[simp] theorem timerPhase_clock (s : State) : (timerPhase s).clock = s.readClock.clock := by rw [timerPhase_eq]
@[simp] theorem timerPhase_draws (s : State) : (timerPhase s).draws = s.readClock.draws := by rw [timerPhase_eq]
@[simp] theorem debouncePhase_clock (s : State) : (debouncePhase s).clock = s.readClock.clock := by
  rw [debouncePhase_eq]
@[simp] theorem debouncePhase_draws (s : State) : (debouncePhase s).draws = s.readClock.draws := by
  rw [debouncePhase_eq]

theorem countDown_of_not_due (t : Byte) : countDown false t = t :=
  BitVec.eq_of_toNat_eq (countDown_toNat false t)

/-- A tick that is due moves the reference by one period and counts both timers down (R233). -/
theorem timerPhase_of_due (h : 1 / 60 ≤ s.readClock.clock - s.tRef) :
    (timerPhase s).tRef = s.tRef + 1 / 60 ∧
      (timerPhase s).dt.toNat = s.dt.toNat - 1 ∧ (timerPhase s).st.toNat = s.st.toNat - 1 := by
  have hdue : Config.tick ≤ s.readClock.clock - s.tRef := h
  rw [timerPhase_eq, decide_eq_true hdue]
  exact ⟨if_pos hdue, countDown_toNat true s.dt, countDown_toNat true s.st⟩

theorem timerPhase_of_not_due (h : s.readClock.clock - s.tRef < 1 / 60) :
    (timerPhase s).tRef = s.tRef ∧ (timerPhase s).dt = s.dt ∧ (timerPhase s).st = s.st := by
  have hdue : ¬ Config.tick ≤ s.readClock.clock - s.tRef := not_le.mpr h
  rw [timerPhase_eq, decide_eq_false hdue]
  exact ⟨if_neg hdue, countDown_of_not_due s.dt, countDown_of_not_due s.st⟩

theorem debouncePhase_of_expired (h : 1 / 60 ≤ s.readClock.clock - s.keyRef) :
    (debouncePhase s).key = none ∧ (debouncePhase s).pressed = false := by
  have hover : Config.debounce ≤ s.readClock.clock - s.keyRef := h
  rw [debouncePhase_eq, decide_eq_true hover]
  exact ⟨by cases s.key <;> rfl, Bool.and_false s.pressed⟩

theorem debouncePhase_of_open (h : s.readClock.clock - s.keyRef < 1 / 60) :
    (debouncePhase s).key = s.key ∧ (debouncePhase s).pressed = s.pressed := by
  have hover : ¬ Config.debounce ≤ s.readClock.clock - s.keyRef := not_le.mpr h
  rw [debouncePhase_eq, decide_eq_false hover]
  exact ⟨by cases s.key <;> rfl, Bool.and_true s.pressed⟩

end

/-! ## Who may fault, and with what -/

/-- The faults an instruction can raise (spec/60_exceptions.md R213). -/
inductive MayFault : Instr → FaultReason → Prop where
  | call (nnn) : MayFault (.call nnn) .stackOverflow
  | display (x y n) : MayFault (.display x y n) (.addressOutOfRange Config.memSize)
  | binaryCodedDecimal (x) : MayFault (.binaryCodedDecimal x) (.addressOutOfRange Config.memSize)
  | store (x) : MayFault (.store x) (.addressOutOfRange Config.memSize)
  | load (x) : MayFault (.load x) (.addressOutOfRange Config.memSize)

/-- From `s` to `t` the status is kept, or is a fault the instruction can raise. -/
def StatusKeptOrFault (i : Instr) (s t : State) : Prop :=
  t.status = s.status ∨ ∃ r, t.status = .faulted r ∧ MayFault i r

/-- An instruction that keeps the status under a condition, and raises a fault it can raise without it. -/
theorem statusKeptOrFault_of_cases {i : Instr} {s t u : State} {r : FaultReason} {p : Prop}
    (h : exec i s = .next t) (hok : p → exec i s = .next u) (hu : u.status = s.status)
    (hfault : ¬ p → exec i s = raiseFault s r) (raises : MayFault i r) : StatusKeptOrFault i s t := by
  by_cases hp : p
  · obtain rfl := Host.Outcome.next.inj ((hok hp).symm.trans h)
    exact .inl hu
  · obtain rfl := Host.Outcome.next.inj ((hfault hp).symm.trans h)
    exact .inr ⟨r, rfl, raises⟩

/-- No instruction writes `status` but by the faults it can raise. -/
theorem exec_status {i : Instr} {s t : State} (h : exec i s = .next t) : StatusKeptOrFault i s t := by
  cases i
  case call nnn =>
    exact statusKeptOrFault_of_cases (p := s.stack.length ≠ 16) h (fun hroom => if_neg hroom) rfl
      (fun hfull => if_pos (not_not.mp hfull)) (.call nnn)
  case display x y n =>
    exact statusKeptOrFault_of_cases h exec_display_in_memory rfl exec_display_past_end (.display x y n)
  case binaryCodedDecimal x =>
    exact statusKeptOrFault_of_cases h exec_binaryCodedDecimal_in_range rfl
      (fun hout => exec_binaryCodedDecimal_past_end (not_lt.mp hout)) (.binaryCodedDecimal x)
  case store x =>
    exact statusKeptOrFault_of_cases h exec_store_in_range rfl
      (fun hout => exec_store_past_end (not_lt.mp hout)) (.store x)
  case load x =>
    exact statusKeptOrFault_of_cases h exec_load_in_range rfl
      (fun hout => exec_load_past_end (not_lt.mp hout)) (.load x)
  all_goals left
  case skipEqImm | skipNeImm | skipEqReg | skipNeReg | skipIfKey | skipIfNotKey =>
    obtain rfl := Host.Outcome.next.inj ((skipIf_eq _ _).symm.trans h)
    rfl
  case ret | getKey =>
    simp only [exec, execRet, execGetKey] at h
    split at h <;> (obtain rfl := Host.Outcome.next.inj h; rfl)
  all_goals obtain rfl := Host.Outcome.next.inj h
  case random x _ => exact dropRandom_status s
  case setDelayTimer | setBeapTimer => exact readClock_status s
  all_goals rfl

/-! ## The clock -/

/-- No reading of the input phase runs backwards (spec/60_exceptions.md R241). -/
theorem inputPhase_clock_ge {keymap : HostKey → Option Key} (es : List HostEvent) : ∀ s : State,
    s.clock ≤ (inputPhase keymap es s).clock := by
  induction es with
  | nil => exact fun _ => le_rfl
  | cons e es ih =>
    intro s
    cases e with
    | quit => exact le_rfl
    | other => exact ih s
    | keyDown h =>
      simp only [inputPhase]
      cases keymap h with
      | none => exact ih s
      | some k => exact (readClock_clock_ge s).trans (ih (s.latchKey k))

theorem setsTimer_iff {i : Instr} :
    setsTimer i = true ↔ (∃ x, i = .setDelayTimer x) ∨ ∃ x, i = .setBeapTimer x := by
  cases i <;> simp [setsTimer]

/-- Only the timer sets write the timers or their reference, or read the clock
(spec/44_keypad_timers.md R195, R196). -/
theorem InstrEffect.timers_kept {i : Instr} {s t : State} (h : InstrEffect s i t) (hi : setsTimer i = false) :
    t.tRef = s.tRef ∧ t.dt = s.dt ∧ t.st = s.st ∧ t.clock = s.clock := by
  cases h with
  | timers _ _ _ _ _ _ sets => exact absurd sets (Bool.eq_false_iff.mp hi)
  | fault | goto | call | ret | registers | index | memory | clear | display | report =>
    exact ⟨rfl, rfl, rfl, rfl⟩

theorem exec_clock_ge {i : Instr} {s t : State} (h : exec i s = .next t) : s.clock ≤ t.clock := by
  by_cases hi : setsTimer i = true
  · obtain ⟨x, rfl⟩ | ⟨x, rfl⟩ := setsTimer_iff.mp hi
    · obtain rfl := Host.Outcome.next.inj ((exec_setDelayTimer s x).symm.trans h)
      exact readClock_clock_ge s
    · obtain rfl := Host.Outcome.next.inj ((exec_setBeapTimer s x).symm.trans h)
      exact readClock_clock_ge s
  · obtain ⟨-, -, -, hclock⟩ := (exec_effect h).timers_kept (Bool.eq_false_iff.mpr hi)
    exact hclock.ge

theorem finishIteration_clock_ge (s : State) : s.clock ≤ (finishIteration s).clock := by
  by_cases hs : s.status = .running
  · rw [finishIteration_running hs]
    calc s.clock ≤ s.readClock.clock := readClock_clock_ge s
      _ = (soundPhase (timerPhase s)).clock := by simp
      _ ≤ (debouncePhase (soundPhase (timerPhase s))).clock := by
        rw [debouncePhase_clock]; exact readClock_clock_ge _
  · rw [finishIteration_stopped hs]

theorem step_clock_ge {s s' : State} (h : step s = .next s') : s.clock ≤ s'.clock := by
  have hinput := inputPhase_clock_ge (keymap := Config.keymap) s.nextEvents s.dropEvents
  obtain ⟨-, ⟨-, rfl⟩ | ⟨-, r, -, rfl⟩ | ⟨-, w, t, -, hx, rfl⟩⟩ := step_next_cases h
  · exact hinput
  · exact hinput
  · exact hinput.trans ((exec_clock_ge hx).trans (finishIteration_clock_ge t))

/-! ## The timers over a step and over a run -/

/-- From `s` to `t` the shared reference moved by `n` ticks, to no later than the clock, and each timer lost
`n`, stopping at 0 (spec/60_exceptions.md R233, R236). -/
structure TicksElapsed (n : Nat) (s t : State) : Prop where
  tRef : t.tRef = s.tRef + n * (1 / 60 : Rat)
  due : 0 < n → t.tRef ≤ t.clock
  dt : t.dt.toNat = s.dt.toNat - n
  st : t.st.toNat = s.st.toNat - n

section
variable {n m : Nat} {s t u : State}

theorem ticksElapsed_zero (href : t.tRef = s.tRef) (hdt : t.dt = s.dt) (hst : t.st = s.st) :
    TicksElapsed 0 s t where
  tRef := by rw [href, Nat.cast_zero, zero_mul, add_zero]
  due h := absurd h (Nat.lt_irrefl 0)
  dt := by rw [hdt, Nat.sub_zero]
  st := by rw [hst, Nat.sub_zero]

theorem TicksElapsed.kept (h : TicksElapsed 0 s t) : t.tRef = s.tRef ∧ t.dt = s.dt ∧ t.st = s.st :=
  ⟨by rw [h.tRef, Nat.cast_zero, zero_mul, add_zero], BitVec.eq_of_toNat_eq h.dt, BitVec.eq_of_toNat_eq h.st⟩

theorem TicksElapsed.trans (hst : TicksElapsed n s t) (htu : TicksElapsed m t u) (hclock : t.clock ≤ u.clock) :
    TicksElapsed (n + m) s u where
  tRef := by rw [htu.tRef, hst.tRef, Nat.cast_add, add_mul, add_assoc]
  due h := by
    obtain rfl | hm := Nat.eq_zero_or_pos m
    · obtain ⟨href, -, -⟩ := htu.kept
      exact href.trans_le ((hst.due h).trans hclock)
    · exact htu.due hm
  dt := by rw [htu.dt, hst.dt, Nat.sub_sub]
  st := by rw [htu.st, hst.st, Nat.sub_sub]

/-- `d` ticks or more lie between the references, so the clock is at or past the old one plus `d` ticks. -/
theorem TicksElapsed.clock_ge (h : TicksElapsed n s t) {d : Nat} (hd : 0 < d) (hn : d ≤ n) :
    s.tRef + d * (1 / 60 : Rat) ≤ t.clock := by
  calc s.tRef + d * (1 / 60 : Rat) ≤ s.tRef + n * (1 / 60 : Rat) := by gcongr
    _ = t.tRef := h.tRef.symm
    _ ≤ t.clock := h.due (hd.trans_le hn)

end

/-- The timer phase takes at most one tick, and only when one is due (spec/60_exceptions.md R233). -/
theorem timerPhase_ticks (s : State) : ∃ n ≤ 1, TicksElapsed n s (timerPhase s) := by
  obtain hdue | hnot := le_or_gt (1 / 60) (s.readClock.clock - s.tRef)
  · obtain ⟨href, hdt, hst⟩ := timerPhase_of_due hdue
    refine ⟨1, le_rfl, by rw [href, Nat.cast_one, one_mul], fun _ => ?_, hdt, hst⟩
    rw [href, timerPhase_clock]
    exact le_sub_iff_add_le'.mp hdue
  · obtain ⟨href, hdt, hst⟩ := timerPhase_of_not_due hnot
    exact ⟨0, Nat.zero_le 1, ticksElapsed_zero href hdt hst⟩

/-- Of the phases after the instruction only the timer phase moves the timers. -/
theorem finishIteration_ticks (s : State) : ∃ n ≤ 1, TicksElapsed n s (finishIteration s) := by
  by_cases hs : s.status = .running
  · obtain ⟨n, hn, ticks⟩ := timerPhase_ticks s
    rw [finishIteration_running hs]
    have rest : TicksElapsed 0 (timerPhase s) (debouncePhase (soundPhase (timerPhase s))) :=
      ticksElapsed_zero (by simp) (by simp) (by simp)
    refine ⟨n, hn, ticks.trans rest ?_⟩
    rw [debouncePhase_clock, ← soundPhase_clock (timerPhase s)]
    exact readClock_clock_ge _
  · rw [finishIteration_stopped hs]
    exact ⟨0, Nat.zero_le 1, ticksElapsed_zero rfl rfl rfl⟩

theorem step_ticks {s s' : State} (h : step s = .next s')
    (unset : ∀ w, fetch s = .ok w → setsTimer (decodeWord w) = false) : ∃ n ≤ 1, TicksElapsed n s s' := by
  obtain ⟨-, ⟨-, rfl⟩ | ⟨-, r, -, rfl⟩ | ⟨-, w, t, hf, hx, rfl⟩⟩ := step_next_cases h
  · exact ⟨0, Nat.zero_le 1, ticksElapsed_zero (by simp) (by simp) (by simp)⟩
  · exact ⟨0, Nat.zero_le 1, ticksElapsed_zero (by simp) (by simp) (by simp)⟩
  · obtain ⟨href, hdt, hst, -⟩ := (exec_effect hx).timers_kept (unset w hf)
    have before : TicksElapsed 0 s t :=
      ticksElapsed_zero (href.trans (by simp)) (hdt.trans (by simp)) (hst.trans (by simp))
    obtain ⟨n, hn, ticks⟩ := finishIteration_ticks t
    exact ⟨n, hn, Nat.zero_add n ▸ before.trans ticks (finishIteration_clock_ge t)⟩

theorem unsetRun_ticks {s t : State} (run : UnsetRun s t) : ∃ n, TicksElapsed n s t := by
  induction run with
  | done => exact ⟨0, ticksElapsed_zero rfl rfl rfl⟩
  | next _ last unset ih =>
    obtain ⟨n, ticks⟩ := ih
    obtain ⟨m, -, tick⟩ := step_ticks last unset
    exact ⟨n + m, ticks.trans tick (step_clock_ge last)⟩

/-! ## The statements about the phases -/

/-- Settles O12: the input phase ends halted at the quit, and the cycle then does nothing. -/
theorem quitHalts : Obligations.QuitHalts := by
  intro s before after hs hq hevents
  have hinput : inputPhase Config.keymap s.nextEvents s.dropEvents =
      { inputPhase Config.keymap before s.dropEvents with status := .halted } := by
    rw [hevents, inputPhase_append _ _ _ hq]
    rfl
  refine ⟨_, ?_, rfl, ?_⟩
  · rw [step_running hs, hinput]
    exact runCycle_halted rfl
  · exact (inputPhase_events before _).trans (dropEvents_events s)

/-- Settles O13: the events before are handled first, and the key-down latches its key over what they left. -/
theorem keyDownLatches : Obligations.KeyDownLatches := by
  intro keymap es h s hq
  refine ⟨fun k hk => ⟨_, rfl, ?_⟩, fun hk => ?_, inputPhase_append _ _ _ hq⟩
  · rw [inputPhase_append _ _ _ hq, inputPhase_keyDown_some hk]
    have hread := readClock_clock_ge (inputPhase keymap es s)
    exact ⟨latchKey_after_input hq s k, (inputPhase_clock_ge es s).trans hread, hread,
      fun _ _ => readClock_listed _⟩
  · rw [inputPhase_append _ _ _ hq, inputPhase_keyDown_none hk]

/-- Settles O15. -/
theorem timerPhaseTicks : Obligations.TimerPhaseTicks := by
  intro s
  refine ⟨_, rfl, ?_⟩
  rw [timerPhase_clock, timerPhase_draws]
  refine ⟨readClock_clock_ge s, fun _ _ => readClock_listed s, ?_, fun hdue => ?_, timerPhase_of_not_due⟩
  · simpa using timerPhase_frame s
  · obtain ⟨href, hdt, hst⟩ := timerPhase_of_due hdue
    exact ⟨href, by omega, by omega, by omega, by omega⟩

/-- Settles O16. -/
theorem soundPhaseSignals : Obligations.SoundPhaseSignals := by
  refine fun s => ⟨fun hpos => if_neg ?_, fun hzero => if_pos (BitVec.eq_of_toNat_eq hzero)⟩
  intro h
  rw [h] at hpos
  exact absurd hpos (by decide)

/-- Settles O17. -/
theorem debounceClears : Obligations.DebounceClears := by
  intro s
  refine ⟨_, rfl, ?_⟩
  rw [debouncePhase_clock, debouncePhase_draws]
  refine ⟨readClock_clock_ge s, fun _ _ => readClock_listed s, ?_, debouncePhase_of_expired,
    debouncePhase_of_open⟩
  simpa using debouncePhase_frame s

/-! ## The statements about instructions -/

/-- Settles O46. -/
theorem unknownReports : Obligations.UnknownReports :=
  fun s w => ⟨[.diagnostic (s.pc - 2) w], rfl, .inl rfl⟩

/-- Settles O48: of all effects only a fault writes `status`. -/
theorem faultsArePrecise : Obligations.FaultsArePrecise := by
  intro i s t r hs h ht
  cases exec_effect h with
  | fault _ q =>
    obtain rfl : q = r := Status.faulted.inj ht
    rfl
  | goto | call | ret | registers | index | memory | clear | display | timers | report =>
    cases hs.symm.trans ht

/-- Settles O49. -/
theorem whoMayFault : Obligations.WhoMayFault := by
  intro i s hs
  obtain ⟨t, h⟩ := exec_answers i s
  refine ⟨t, h, ?_⟩
  obtain kept | ⟨r, ht, raises⟩ := exec_status h
  · exact .inl (kept.trans hs)
  · right
    cases raises with
    | call nnn => exact .inl ⟨ht, nnn, rfl⟩
    | display x y n => exact .inr ⟨ht, .inl ⟨x, y, n, rfl⟩⟩
    | binaryCodedDecimal x => exact .inr ⟨ht, .inr (.inl ⟨x, rfl⟩)⟩
    | store x => exact .inr ⟨ht, .inr (.inr (.inl ⟨x, rfl⟩))⟩
    | load x => exact .inr ⟨ht, .inr (.inr (.inr ⟨x, rfl⟩))⟩

/-! ## The statements about steps and runs -/

/-- Settles O57. -/
theorem clockNeverRunsBack : Obligations.ClockNeverRunsBack :=
  fun _ _ => step_clock_ge

/-- Settles O58. -/
theorem timersMoveByTicks : Obligations.TimersMoveByTicks := by
  intro s s' h unset
  obtain ⟨n, hn, ticks⟩ := step_ticks h unset
  obtain rfl | rfl : n = 0 ∨ n = 1 := by omega
  · exact .inl ticks.kept
  · exact .inr ⟨by rw [ticks.tRef, Nat.cast_one, one_mul], ticks.due one_pos, ticks.dt, ticks.st⟩

/-- Settles O59: a timer that was `d` and is 0 has lost at least `d` ticks. -/
theorem timersNeverEarly : Obligations.TimersNeverEarly := by
  intro s t run
  obtain ⟨n, ticks⟩ := unsetRun_ticks run
  have hdt := ticks.dt
  have hst := ticks.st
  exact ⟨⟨n, ticks.tRef, ticks.due, hdt, hst⟩, fun hd h0 => ticks.clock_ge hd (by omega),
    fun hd h0 => ticks.clock_ge hd (by omega)⟩

/-- Settles O60: the iteration hands over one list, and neither a phase nor an instruction another. -/
theorem stepUsesOneEventList : Obligations.StepUsesOneEventList := by
  intro s s' h
  have hused : s'.draws.events = s.draws.events.tail := by
    obtain ⟨-, ⟨-, rfl⟩ | ⟨-, r, -, rfl⟩ | ⟨-, w, t, -, hx, rfl⟩⟩ := step_next_cases h
    · simp
    · simp
    · rw [finishIteration_events, exec_events hx]
      simp
  exact ⟨hused, fun es rest hlist => ⟨nextEvents_cons s hlist, by rw [hused, hlist, List.tail_cons]⟩⟩

end Sys2Proof.Machine
end

section
/-!
SUPPORT. The invariant of the block (spec/70_reset_and_hazards.md R253): what an instruction can leave in each piece of
state the invariant speaks of, that every phase of a step keeps it, that reset and boot establish it, and the settled
statements of that family.
-/
namespace Sys2Proof.Machine

/-! ## What an instruction can leave in `pc` -/

/-- Where an instruction that runs in `s` can leave `pc` (spec/40_control_flow.md R100 to R108,
spec/30_encoding.md R76). -/
inductive NextPc (s : State) : Word → Prop where
  | kept : NextPc s s.pc
  | skipped : NextPc s (s.pc + 2)
  /-- A fault, or the retry of GET_KEY. -/
  | restarted : NextPc s (s.pc - 2)
  | jumped (nnn) : NextPc s (zextAddr nnn)
  | offset (nnn b) : NextPc s (offsetTarget nnn b)
  | popped {w} (mem : w ∈ s.stack) : NextPc s w

section
variable {s t : State}

theorem skipIf_nextPc {c : Bool} (h : skipIf c s = .next t) : NextPc s t.pc := by
  rw [skipIf_eq] at h
  obtain rfl := Host.Outcome.next.inj h
  cases c
  · exact .kept
  · exact .skipped

theorem execRet_nextPc (h : execRet s = .next t) : NextPc s t.pc := by
  unfold execRet at h
  split at h <;> obtain rfl := Host.Outcome.next.inj h
  next => exact .kept
  next hlast => exact .popped (List.mem_of_getLast? hlast)

theorem execCall_nextPc {nnn : Addr12} (h : execCall nnn s = .next t) : NextPc s t.pc := by
  unfold execCall at h
  split at h <;> obtain rfl := Host.Outcome.next.inj h
  · exact .restarted
  · exact .jumped nnn

/-- Every instruction leaves `pc` in one of the places listed. -/
theorem exec_nextPc {i : Instr} (h : exec i s = .next t) : NextPc s t.pc := by
  cases i
  case skipEqImm | skipNeImm | skipEqReg | skipNeReg | skipIfKey | skipIfNotKey => exact skipIf_nextPc h
  case ret => exact execRet_nextPc h
  case call => exact execCall_nextPc h
  case getKey | display | binaryCodedDecimal | store | load =>
    simp only [exec, execGetKey, execDisplay, execBinaryCodedDecimal, execStore, execLoad] at h
    split at h <;> obtain rfl := Host.Outcome.next.inj h
    · exact .kept
    · exact .restarted
  all_goals obtain rfl := Host.Outcome.next.inj h
  case jump nnn => exact .jumped nnn
  case jumpOffset nnn => exact .offset nnn _
  case random => exact (dropRandom_pc s).symm ▸ .kept
  case setDelayTimer | setBeapTimer => exact (readClock_pc s).symm ▸ .kept
  all_goals exact .kept

/-- The highest of these places is JUMP_OFFSET's 0xFFF + 0xFF (spec/10_state.md R23). -/
theorem NextPc.le {p : Word} (h : NextPc s p) (hlow : 2 ≤ s.pc.toNat) (hhigh : s.pc.toNat ≤ 0x1000)
    (hstack : ∀ w ∈ s.stack, w.toNat ≤ 0x1000) : p.toNat ≤ 0x10FE := by
  cases h with
  | kept => omega
  | skipped => bv_omega
  | restarted => bv_omega
  | jumped nnn => rw [zextAddr_toNat]; omega
  | offset nnn b => rw [offsetTarget_toNat]; omega
  | popped mem => exact (hstack p mem).trans (by decide)

/-! ## What it can leave in `I`, the stack, memory and the timer reference -/

/-- Each of the three writers of `I` keeps it within 12 bits (spec/10_state.md R24). -/
theorem exec_index_le {i : Instr} (h : exec i s = .next t) (hs : s.index.toNat ≤ 0x0FFF) :
    t.index.toNat ≤ 0x0FFF := by
  by_cases hsame : t.index = s.index
  · rwa [hsame]
  · obtain ⟨nnn, rfl⟩ | ⟨x, rfl⟩ | ⟨x, rfl⟩ := (exec_effect h).index_writer hsame <;>
      obtain rfl := Host.Outcome.next.inj h
    · change (zextAddr nnn).toNat ≤ 0x0FFF
      rw [zextAddr_toNat]
      omega
    · change (addIndexResult s.index (s.reg x)).toNat ≤ 0x0FFF
      rw [addIndexResult_toNat]
      omega
    · change (fontAddress (s.reg x)).toNat ≤ 0x0FFF
      rw [fontAddress_toNat]
      omega

/-- A CALL pushes only below the capacity, and a RETURN only drops (spec/10_state.md R25). -/
theorem exec_stack_le {i : Instr} (h : exec i s = .next t) (hs : s.stack.length ≤ 16) : t.stack.length ≤ 16 := by
  by_cases hsame : t.stack = s.stack
  · rwa [hsame]
  · obtain ⟨⟨nnn, rfl⟩, hpush⟩ | ⟨-, hpop⟩ := (exec_effect h).stack_writer hsame
    · have hroom : s.stack.length ≠ 16 := fun hfull =>
        hsame (Host.Outcome.next.inj ((exec_call_of_full hfull).symm.trans h) ▸ rfl)
      rw [hpush, List.length_append, List.length_singleton]
      omega
    · rw [hpop, List.length_dropLast]
      omega

/-- A new stack entry is the `pc` the CALL ran with. -/
theorem exec_mem_stack {i : Instr} (h : exec i s = .next t) {w : Word} (hw : w ∈ t.stack) :
    w ∈ s.stack ∨ w = s.pc := by
  by_cases hsame : t.stack = s.stack
  · exact .inl (hsame ▸ hw)
  · obtain ⟨-, hpush⟩ | ⟨-, hpop⟩ := (exec_effect h).stack_writer hsame
    · simpa [hpush] using hw
    · exact .inl (List.mem_of_mem_dropLast (hpop ▸ hw))

theorem bytesWritten_ne_zero_iff {i : Instr} :
    bytesWritten i ≠ 0 ↔ (∃ x, i = .binaryCodedDecimal x) ∨ ∃ x, i = .store x := by
  cases i <;> simp [bytesWritten]

/-- Only an instruction that writes bytes changes memory (spec/20_memory.md R51). -/
theorem InstrEffect.mem_kept {i : Instr} (h : InstrEffect s i t) (hi : bytesWritten i = 0) : t.mem = s.mem := by
  cases h with
  | memory _ bs len => rw [List.eq_nil_of_length_eq_zero (len.trans hi)]; rfl
  | fault | goto | call | ret | registers | index | clear | display | timers | report => rfl

/-- The two writers of memory write a block in range, or fault and write nothing. -/
theorem exec_mem_wf {i : Instr} (h : exec i s = .next t) (hs : s.mem.wf) : t.mem.wf := by
  by_cases hi : bytesWritten i = 0
  · rwa [(exec_effect h).mem_kept hi]
  · obtain ⟨x, rfl⟩ | ⟨x, rfl⟩ := bytesWritten_ne_zero_iff.mp hi
    · by_cases hin : s.index.toNat + 2 < Config.memSize
      · obtain rfl := Host.Outcome.next.inj ((exec_binaryCodedDecimal_in_range hin).symm.trans h)
        exact wf_memWriteAll _ hs hin
      · obtain rfl := Host.Outcome.next.inj ((exec_binaryCodedDecimal_past_end (not_lt.mp hin)).symm.trans h)
        exact hs
    · by_cases hin : s.index.toNat + x.val < Config.memSize
      · obtain rfl := Host.Outcome.next.inj ((exec_store_in_range hin).symm.trans h)
        exact wf_memWriteAll _ hs (by rw [regsUpTo_length]; exact hin)
      · obtain rfl := Host.Outcome.next.inj ((exec_store_past_end (not_lt.mp hin)).symm.trans h)
        exact hs

/-- A timer set moves the reference to the reading it takes; no other instruction moves it
(spec/44_keypad_timers.md R195, R196). -/
theorem exec_tRef {i : Instr} (h : exec i s = .next t) : t.tRef = s.tRef ∨ t.tRef = t.clock := by
  by_cases hi : setsTimer i = true
  · right
    obtain ⟨x, rfl⟩ | ⟨x, rfl⟩ := setsTimer_iff.mp hi
    · obtain rfl := Host.Outcome.next.inj ((exec_setDelayTimer s x).symm.trans h)
      rfl
    · obtain rfl := Host.Outcome.next.inj ((exec_setBeapTimer s x).symm.trans h)
      rfl
  · obtain ⟨href, -⟩ := (exec_effect h).timers_kept (Bool.eq_false_iff.mpr hi)
    exact .inl href

/-- Ticks leave the reference non-negative and no later than the clock (spec/60_exceptions.md R233). -/
theorem TicksElapsed.tRef_bounds {n : Nat} (h : TicksElapsed n s t) (hnonneg : 0 ≤ s.tRef)
    (hle : s.tRef ≤ s.clock) (hclock : s.clock ≤ t.clock) : 0 ≤ t.tRef ∧ t.tRef ≤ t.clock := by
  constructor
  · rw [h.tRef]
    positivity
  · obtain rfl | hn := Nat.eq_zero_or_pos n
    · obtain ⟨href, -, -⟩ := h.kept
      exact href.trans_le (hle.trans hclock)
    · exact h.due hn

end

/-! ## The invariant through a step -/

section
variable {s t : State}

theorem State.Inv.clock_nonneg (h : s.Inv) : 0 ≤ s.clock :=
  h.tRef_nonneg.trans h.tRef_le

/-- An accepted key-down sets both fields of the latch, and its reference to the clock (spec/60_exceptions.md R231). -/
theorem latchKey_keeps_inv (h : s.Inv) (k : Key) : (s.latchKey k).Inv := by
  have hclock := readClock_clock_ge s
  rw [latchKey_frame]
  exact { h with
    latch := rfl
    keyRef_nonneg := h.clock_nonneg.trans hclock
    tRef_le := h.tRef_le.trans hclock
    keyRef_le := le_rfl }

theorem inputPhase_keeps_inv {keymap : HostKey → Option Key} (es : List HostEvent) :
    ∀ {s : State}, s.Inv → (inputPhase keymap es s).Inv := by
  induction es with
  | nil => exact id
  | cons e es ih =>
    intro s h
    cases e with
    | quit => exact { h with }
    | other => exact ih h
    | keyDown code =>
      simp only [inputPhase]
      cases keymap code with
      | none => exact ih h
      | some k => exact ih (latchKey_keeps_inv h k)

/-- An instruction keeps the invariant when it runs, as every fetched one does, with `pc` from 2 to 0x1000
(spec/30_encoding.md R75). -/
theorem exec_keeps_inv {i : Instr} (h : s.Inv) (hlow : 2 ≤ s.pc.toNat) (hhigh : s.pc.toNat ≤ 0x1000)
    (hx : exec i s = .next t) : t.Inv := by
  have hclock := exec_clock_ge hx
  have htRef := exec_tRef hx
  obtain ⟨hkey, hpressed, hkeyRef⟩ := (exec_effect hx).latch
  exact {
    index_le := exec_index_le hx h.index_le
    pc_le := (exec_nextPc hx).le hlow hhigh h.stack_le
    stack_len := exec_stack_le hx h.stack_len
    stack_le := fun w hw => (exec_mem_stack hx hw).elim (h.stack_le w) (fun e => e ▸ hhigh)
    latch := by rw [hpressed, hkey, h.latch]
    mem_wf := exec_mem_wf hx h.mem_wf
    tRef_nonneg := htRef.elim (fun e => e ▸ h.tRef_nonneg) (fun e => e ▸ h.clock_nonneg.trans hclock)
    keyRef_nonneg := hkeyRef ▸ h.keyRef_nonneg
    tRef_le := htRef.elim (fun e => e ▸ h.tRef_le.trans hclock) le_of_eq
    keyRef_le := hkeyRef ▸ h.keyRef_le.trans hclock }

theorem timerPhase_keeps_inv (h : s.Inv) : (timerPhase s).Inv := by
  have hclock : s.clock ≤ (timerPhase s).clock := by
    rw [timerPhase_clock]
    exact readClock_clock_ge s
  obtain ⟨n, -, ticks⟩ := timerPhase_ticks s
  obtain ⟨hnonneg, hle⟩ := ticks.tRef_bounds h.tRef_nonneg h.tRef_le hclock
  rw [timerPhase_frame]
  exact { h with
    tRef_nonneg := hnonneg
    tRef_le := hle
    keyRef_le := h.keyRef_le.trans hclock }

theorem soundPhase_keeps_inv (h : s.Inv) : (soundPhase s).Inv := by
  rw [soundPhase_frame]
  exact { h with }

/-- Debounce clears both fields of the latch or neither (spec/60_exceptions.md R235). -/
theorem debouncePhase_keeps_inv (h : s.Inv) : (debouncePhase s).Inv := by
  have hclock := readClock_clock_ge s
  rw [debouncePhase_frame, debouncePhase_clock]
  exact { h with
    latch := by
      obtain hover | hopen := le_or_gt (1 / 60) (s.readClock.clock - s.keyRef)
      · obtain ⟨hkey, hpressed⟩ := debouncePhase_of_expired hover
        simp [hkey, hpressed]
      · obtain ⟨hkey, hpressed⟩ := debouncePhase_of_open hopen
        simpa [hkey, hpressed] using h.latch
    tRef_le := h.tRef_le.trans hclock
    keyRef_le := h.keyRef_le.trans hclock }

theorem finishIteration_keeps_inv (h : s.Inv) : (finishIteration s).Inv := by
  by_cases hs : s.status = .running
  · rw [finishIteration_running hs]
    exact debouncePhase_keeps_inv (soundPhase_keeps_inv (timerPhase_keeps_inv h))
  · rwa [finishIteration_stopped hs]

end

/-- A word is fetched only from two bytes in memory, so its instruction runs with `pc` from 2 to 0x1000
(spec/30_encoding.md R71, R75). -/
theorem fetch_ok_pc {s : State} {w : Word} (h : fetch s = .ok w) :
    2 ≤ (s.pc + 2).toNat ∧ (s.pc + 2).toNat ≤ 0x1000 := by
  obtain ⟨hin, -⟩ | ⟨-, hf⟩ := fetch_cases s
  · have hin : s.pc.toNat + 1 < 4096 := hin
    constructor <;> bv_omega
  · cases hf.symm.trans h

/-! ## The statements -/

/-- Settles O47: the input phase, the fetched instruction with `pc` moved on by 2, and the later phases each keep
the invariant. -/
theorem stepKeepsInvariant : Obligations.StepKeepsInvariant := by
  intro s s' hs h
  have hinput : (inputPhase Config.keymap s.nextEvents s.dropEvents).Inv :=
    inputPhase_keeps_inv s.nextEvents { hs with }
  obtain ⟨-, ⟨-, rfl⟩ | ⟨-, r, -, rfl⟩ | ⟨-, w, t, hf, hx, rfl⟩⟩ := step_next_cases h
  · exact hinput
  · exact { hinput with }
  · obtain ⟨hlow, hhigh⟩ := fetch_ok_pc hf
    have hran : State.Inv { inputPhase Config.keymap s.nextEvents s.dropEvents with pc := s.pc + 2 } :=
      { hinput with pc_le := hhigh.trans (by decide) }
    exact finishIteration_keeps_inv (exec_keeps_inv hran hlow hhigh hx)

/-- Settles O3. -/
theorem resetHasInvariant : Obligations.ResetHasInvariant where
  index_le := by decide
  pc_le := by decide
  stack_len := Nat.zero_le _
  stack_le := fun _ hw => nomatch hw
  latch := rfl
  mem_wf := wf_nil
  tRef_nonneg := le_rfl
  keyRef_nonneg := le_rfl
  tRef_le := le_rfl
  keyRef_le := le_rfl

section
variable {image : List Byte}

theorem boot_of_fits (h : image.length ≤ 3584) (t0 : Time) :
    boot image t0 = some { State.reset with
      mem := memWriteAll State.reset.mem Config.loadBase image, tRef := t0, keyRef := t0, clock := t0 } :=
  if_pos h

theorem boot_of_too_long (h : 3584 < image.length) (t0 : Time) : boot image t0 = none :=
  if_neg (Nat.not_le.mpr h)

/-- An image that fits ends within memory (spec/70_reset_and_hazards.md R255). -/
theorem image_in_memory (h : image.length ≤ 3584) : Config.loadBase + image.length ≤ Config.memSize :=
  Nat.add_le_add_left h _

end

/-- Settles O2. -/
theorem bootLoadsImage : Obligations.BootLoadsImage := by
  refine fun image t0 => ⟨fun h => ⟨_, boot_of_fits h t0, rfl, fun j hj => ?_, fun a => ?_⟩,
    fun h => boot_of_too_long h t0⟩
  · exact memRead_memWriteAll_inside wf_nil (image_in_memory h) (List.getElem?_eq_getElem hj)
  · exact memRead_memWriteAll_outside image State.reset.mem

/-- Settles O4: boot is reset but for the image, which keeps memory canonical, and the references at the clock. -/
theorem bootHasInvariant : Obligations.BootHasInvariant := by
  intro image t0 s h0 hboot
  obtain h | h := le_or_gt image.length 3584
  · rw [boot_of_fits h] at hboot
    obtain rfl := Option.some.inj hboot
    exact { resetHasInvariant with
      mem_wf := wf_memWriteAll image wf_nil (image_in_memory h)
      tRef_nonneg := h0
      keyRef_nonneg := h0
      tRef_le := le_rfl
      keyRef_le := le_rfl }
  · rw [boot_of_too_long h] at hboot
    cases hboot

end Sys2Proof.Machine
end
